-- ==== Sys2Proof/Word.lean ====
section
/-! DEFINITION. The word types of the OWTM block (`00_scope.md` R9): a byte and a 16-bit command word. -/

namespace Sys2Proof

/-- A data byte: `imm8`, `RXDATA`, `CRC`, `sh`, a status register. -/
abbrev Byte := BitVec 8

/-- A command word as it stands on the command port, `cmd[15:0]` (R45, R60). -/
abbrev CmdWord := BitVec 16

end Sys2Proof
end

