-- ==== Sys2Proof/Config.lean ====
section
/-! DEFINITION. What an implementation of the block fixes (the timing parameters of `00_scope.md` R5) and what the
outside of the block leaves free: the events of R6 and R7; the two constants without a body, `clkPerUs` and `freeEvent`. -/

namespace Sys2Proof

/-- What the outside can do to the block, one event at a time (R6, R7, R45, R46, R170). A run of the block is a
sequence of these and of the issue steps they lead to. -/
inductive Event where
  /-- The host drives `cmd_valid = 1` with this word on `cmd` (R45). -/
  | present (w : CmdWord)
  /-- The host drives `cmd_valid = 0`: "may be held until `cmd_ready` rises or be withdrawn" (R45). -/
  | withdraw
  /-- The host puts this address on `sr_addr` and reads `sr_rdata` (R46). -/
  | readStatus (a : BitVec 2)
  /-- One microsecond passes with this environment bit; `true` is the released (high) level (R6, R7). -/
  | tick (dev : Bool)
  /-- `rst_n` falls (R170). -/
  | rstAssert
  /-- `rst_n` rises (R170). -/
  | rstRelease
deriving DecidableEq, Repr, Inhabited

namespace Config

/-- The timing parameters of R5, each as wide as the counter it is loaded into or compared with: nine bits for
`tcnt` (R23), six for `poll` (R25). `CLK_PER_US` is `Config.clkPerUs`, the host software's two are `HostLimits`. -/
structure Timing where
  /-- `T_RSTL`: reset pulse, line driven low. -/
  tRstl : BitVec 9
  /-- `T_RSTREL`: released, before the first presence sample. -/
  tRstrel : BitVec 9
  /-- `T_POLL`: spacing of presence samples. -/
  tPoll : BitVec 9
  /-- `N_POLL`: presence sample budget. -/
  nPoll : BitVec 6
  /-- `T_RSTGUARD`: guard after successful presence. -/
  tRstguard : BitVec 9
  /-- `T_RDLOW`: read slot, line driven low. -/
  tRdlow : BitVec 9
  /-- `T_RDSAMPLE`: read slot, released, before the sample. -/
  tRdsample : BitVec 9
  /-- `T_RDREC`: read slot, after the sample. -/
  tRdrec : BitVec 9
  /-- `T_W1LOW`: write-1 slot, line driven low. -/
  tW1low : BitVec 9
  /-- `T_W1REC`: write-1 slot, released. -/
  tW1rec : BitVec 9
  /-- `T_W0LOW`: write-0 slot, line driven low. -/
  tW0low : BitVec 9
  /-- `T_W0REC`: write-0 slot, released. -/
  tW0rec : BitVec 9
deriving DecidableEq, Repr

/-- The defaults of R5 (decision D3: the lower end of every range). -/
def Timing.default : Timing :=
  { tRstl := 480, tRstrel := 15, tPoll := 5, nPoll := 50, tRstguard := 5,
    tRdlow := 5, tRdsample := 10, tRdrec := 50,
    tW1low := 5, tW1rec := 60, tW0low := 60, tW0rec := 5 }

/-- The value lies in the range `lo..hi` of R5's table. -/
abbrev inRange {n : Nat} (v : BitVec n) (lo hi : Nat) : Prop := lo ≤ v.toNat ∧ v.toNat ≤ hi

/-- The ranges R5 allows. Its constraint `T_W1LOW < T_W0LOW` follows from them
(`Sys2Proof.Laws.Timing.legal_asymmetry`). -/
abbrev Timing.Legal (c : Timing) : Prop :=
  inRange c.tRstl 480 500 ∧ inRange c.tRstrel 15 20 ∧ inRange c.tPoll 5 5 ∧ inRange c.nPoll 50 50 ∧
  inRange c.tRstguard 5 5 ∧ inRange c.tRdlow 5 5 ∧ inRange c.tRdsample 10 10 ∧ inRange c.tRdrec 50 55 ∧
  inRange c.tW1low 5 5 ∧ inRange c.tW1rec 60 65 ∧ inRange c.tW0low 60 65 ∧ inRange c.tW0rec 5 5

/-- `CLK_PER_US` (R5): clock cycles per tick, "OPEN, integer ≥ 1, not architectural" (log 5). It has no body, so it may
be any positive number. The prescaler it belongs to is below the steps of this model (R31), and it "appears in no
rule's result" (`92_eei_decisions.md`). -/
opaque clkPerUs : PNat

/-- The parameters of the host software (R5, D24). -/
structure HostLimits where
  /-- `MAX_DEVICES`: enumeration cap. -/
  maxDevices : Nat
  /-- `MAX_CONV_POLL`: conversion poll cap; `none` is "absent", the unbounded poll of the reference. -/
  maxConvPoll : Option Nat
deriving DecidableEq, Repr

/-- The ranges of `92_eei_decisions.md`, "Parameters left open": `MAX_DEVICES` at least 1, `MAX_CONV_POLL` absent or at
least 1. -/
abbrev HostLimits.Legal (l : HostLimits) : Prop := 1 ≤ l.maxDevices ∧ ∀ cap ∈ l.maxConvPoll, 1 ≤ cap

/-- The default of `MAX_DEVICES` (R5, D24: 10). `MAX_CONV_POLL` is OPEN and has none: the caller gives it. -/
def HostLimits.default (maxConvPoll : Option Nat) : HostLimits := { maxDevices := 10, maxConvPoll := maxConvPoll }

/-- FREE VALUE (log 2): what the outside brings next when `State.inbox` says nothing more, as a function of how many
free events have been drawn. It has no body, so no proof can see what it is: the host, the bus environment (R58) and
the reset pin may do anything. -/
opaque freeEvent : Nat → Event

end Config

end Sys2Proof
end

