-- ==== Sys2Proof/Machine/State.lean ====
section
/-! DEFINITION. The state of the OWTM block (`10_state.md` R10 to R32), its input pins (R41, R45, R46, R170), its
build-time parameters (R5), and the model's own account of the outside (log 1, log 2). Plain data throughout. -/

namespace Sys2Proof.Machine

/-- `STATUS.ERR`, the result code of the most recently completed command (R14, R150). -/
inductive Err where
  /-- 0: completed as specified. -/
  | ok
  /-- 1: RESET used up its presence samples (R151). -/
  | noPresence
  /-- 2: a bit or byte command while `RSTOK = 0` (R154). -/
  | notArmed
  /-- 3: not a legal command word (R153). -/
  | illegal
deriving DecidableEq, Repr

/-- `fsm`: the twelve phases (R21, R80). Their binary encoding is not architectural. -/
inductive Phase where
  | idle
  | rstLow
  | rstWait
  | rstPoll
  | rstGuard
  | rdLow
  | rdWait
  | rdRec
  | w1Low
  | w1Rec
  | w0Low
  | w0Rec
deriving DecidableEq, Repr

/-- Why the machine would stop with a fault. NOBODY RAISES ONE: the block has no traps (`60_exceptions.md`) and both of
its steps are total functions (`93_implementation_defined.md`, after U14), so the type has no constructor. -/
inductive Fault where
deriving DecidableEq, Repr

/-- Why an instruction would be refused. -/
inductive Refusal where
  /-- Raised only by an arm of `exec` for an instruction that has no meaning yet. No arm of this model raises it. Safe:
  the machine stops where the hardware goes on. -/
  | notModelled (mnemonic : String)
deriving DecidableEq, Repr

/-- The whole state. -/
structure State where
  /-- `STATUS.BUSY` (R12): a timed command is in progress. -/
  busy : Bool
  /-- `STATUS.RSTOK` (R13): the armed flag. -/
  rstok : Bool
  /-- `STATUS.ERR` (R14). -/
  err : Err
  /-- `RXDATA` (R15). -/
  rxdata : Byte
  /-- `CRC` (R16). -/
  crc : Byte
  /-- `fsm` (R21): the current phase. -/
  fsm : Phase
  /-- `tcnt` (R23): ticks remaining in the current phase. -/
  tcnt : BitVec 9
  /-- `entry` (R24): the next tick takes a sample on entry. -/
  entry : Bool
  /-- `poll` (R25): presence samples used up. -/
  poll : BitVec 6
  /-- `seen_low` (R26): a presence sample has read low. -/
  seenLow : Bool
  /-- `bitcnt` (R27): completed slots of a byte command. -/
  bitcnt : BitVec 4
  /-- `sh` (R28): the shift register. -/
  sh : Byte
  /-- `opc` (R29): the opcode of the timed command in progress. -/
  opc : BitVec 4
  /-- `dq_oe` (R30): the block drives the line low. -/
  dqOe : Bool
  /-- Input pin `rst_n` (R170); `true` is the released level. -/
  rstN : Bool
  /-- Input pin `cmd_valid` (R45). -/
  cmdValid : Bool
  /-- Input pins `cmd[15:0]` (R45). -/
  cmd : CmdWord
  /-- Input pins `sr_addr[1:0]` (R46). -/
  srAddr : BitVec 2
  /-- The timing parameters (R5): constants of the implementation, which no step writes (log 4). -/
  cfg : Config.Timing
  /-- THE MODEL'S OWN: what the outside will bring, in order (log 1). -/
  inbox : List Event
  /-- THE MODEL'S OWN: how many free events have been drawn (log 2). -/
  draws : Nat
deriving DecidableEq, Repr

/-- Right after hardware reset (R32, R171), with the pins and the model's own fields as log 10 and log 2 say and the
timing parameters at the defaults of R5. -/
def State.reset : State :=
  { busy := false, rstok := false, err := .ok, rxdata := 0#8, crc := 0#8,
    fsm := .idle, tcnt := 0#9, entry := false, poll := 0#6, seenLow := false, bitcnt := 0#4, sh := 0#8, opc := 0#4,
    dqOe := false,
    rstN := true, cmdValid := false, cmd := 0, srAddr := 0,
    cfg := Config.Timing.default, inbox := [], draws := 0 }

/-- The outcome type of a step. -/
abbrev Result := Host.Outcome State Fault Refusal

end Sys2Proof.Machine
end

