-- ==== Sys2Proof/Machine/Flags.lean ====
section
/-! DEFINITION. The flags as the host reads them: the codes of `STATUS.ERR`, the `STATUS` byte, the status space and
the discrete outputs (`10_state.md` R11 to R17, `20_memory.md` R45 to R47, `60_exceptions.md` R150). -/

namespace Sys2Proof.Machine

/-- The code of R150. -/
def Err.code : Err → BitVec 2
  | .ok => 0#2
  | .noPresence => 1#2
  | .notArmed => 2#2
  | .illegal => 3#2

/-- `STATUS = {0000, ERR[1:0], RSTOK, BUSY}` (R11). -/
def State.status (s : State) : Byte :=
  0#4 ++ s.err.code ++ BitVec.ofBool s.rstok ++ BitVec.ofBool s.busy

/-- `SR[a]`, the status address map (R47). -/
def State.sr (s : State) (a : BitVec 2) : Byte :=
  if a = 0#2 then s.status
  else if a = 1#2 then s.rxdata
  else if a = 2#2 then s.crc
  else 0#8

/-- Output `sr_rdata`: combinational, `SR[sr_addr]` (R46). -/
def State.srRdata (s : State) : Byte := s.sr s.srAddr

/-- Output `cmd_ready`: `NOT BUSY`, and 0 while hardware reset is asserted (R45, R170). -/
def State.cmdReady (s : State) : Bool := s.rstN && !s.busy

/-- Output `busy`: equals `STATUS.BUSY` (R46). -/
def State.busyOut (s : State) : Bool := s.busy

end Sys2Proof.Machine
end

