-- ==== Sys2Proof/Machine/Operands.lean ====
section
/-! DEFINITION. The operand forms (`30_encoding.md` R61) and the two data paths of the shift register
(`10_state.md` R28). -/

namespace Sys2Proof.Machine

/-- `imm8[7:1] = 0`: the byte is a bit operand (R61). -/
def isBitOperand (imm8 : Byte) : Bool := imm8.extractLsb' 1 7 == 0#7

/-- The bit operand `b = imm8[0]` of `WRBIT`, and the bit the slot about to start sends, `sh[0]` (R28, R61). -/
def lowBit (v : Byte) : Bool := v.getLsbD 0

/-- One sample into the shift register: `{line, sh[7:1]}` (R28, R82). -/
def shiftIn (line : Bool) (sh : Byte) : Byte := BitVec.ofBool line ++ sh.extractLsb' 1 7

/-- The end of a write slot of `WRBYTE`: `sh >> 1` (R81). -/
def shiftOut (sh : Byte) : Byte := sh >>> 1

/-- `zext_8(sh[7])`: the one sampled bit of `RDBIT` as a byte (R84). -/
def sampledBit (sh : Byte) : Byte := (BitVec.ofBool (sh.getLsbD 7)).setWidth 8

end Sys2Proof.Machine
end

