-- ==== Sys2Proof/Machine/Ops.lean ====
section
/-! DEFINITION. The shared operations: the line (`20_memory.md` R41 to R44), entering a phase and starting a slot
(`40_bus_bit_ops.md` R80, R81), starting and completing a command (R83, R84), ending in an error (`60_exceptions.md`
R152), acceptance (R45), hardware reset (R170). The block has no traps: what stands in the place of taking an exception
is `raise` and `complete`, and there is nothing to return from (R156, R157). -/

namespace Sys2Proof.Machine

/-- Line resolution, `line = dev AND NOT dq_oe`; also the input `dq_i` (R42). `true` is the high level. -/
def line (dev dqOe : Bool) : Bool := dev && !dqOe

/-- Output `dq_o`: the constant 0, the block never drives high (R30, R41). -/
def State.dqO (_s : State) : Bool := false

/-- The value of `dq_oe` throughout a phase (R80). -/
def Phase.drive : Phase → Bool
  | .idle => false
  | .rstLow => true
  | .rstWait => false
  | .rstPoll => false
  | .rstGuard => false
  | .rdLow => true
  | .rdWait => false
  | .rdRec => false
  | .w1Low => true
  | .w1Rec => false
  | .w0Low => true
  | .w0Rec => false

/-- The phase takes a sample on its first tick (R80). -/
def Phase.samplesOnEntry : Phase → Bool
  | .idle => false
  | .rstLow => false
  | .rstWait => false
  | .rstPoll => true
  | .rstGuard => false
  | .rdLow => false
  | .rdWait => false
  | .rdRec => true
  | .w1Low => false
  | .w1Rec => false
  | .w0Low => false
  | .w0Rec => false

/-- The duration parameter of a phase (R80). `IDLE` has none: it is never entered with a duration. -/
def Phase.duration (c : Config.Timing) : Phase → BitVec 9
  | .idle => 0
  | .rstLow => c.tRstl
  | .rstWait => c.tRstrel
  | .rstPoll => c.tPoll
  | .rstGuard => c.tRstguard
  | .rdLow => c.tRdlow
  | .rdWait => c.tRdsample
  | .rdRec => c.tRdrec
  | .w1Low => c.tW1low
  | .w1Rec => c.tW1rec
  | .w0Low => c.tW0low
  | .w0Rec => c.tW0rec

/-- `enter(p)` of R81. -/
def enter (p : Phase) (s : State) : State :=
  { s with fsm := p, dqOe := p.drive, tcnt := p.duration s.cfg, entry := p.samplesOnEntry }

/-- `start_slot()` of R81. -/
def startSlot (s : State) : State :=
  if s.opc = 2#4 ∨ s.opc = 4#4 then enter .rdLow s
  else if lowBit s.sh then enter .w1Low s
  else enter .w0Low s

/-- "start RESET" of R83. -/
def startReset (s : State) : State :=
  enter .rstLow { s with opc := 1#4, busy := true, rstok := false, poll := 0#6, seenLow := false }

/-- "start the bit or byte command" of R83, with the value the shift register is loaded with. -/
def startSlots (op : BitVec 4) (sh0 : Byte) (s : State) : State :=
  startSlot { s with opc := op, busy := true, bitcnt := 0#4, sh := sh0 }

/-- `RSTOK` after a completion with result `e` (R84): only RESET writes it. -/
def rstokAfter (e : Err) (s : State) : Bool := if s.opc = 1#4 then decide (e = .ok) else s.rstok

/-- `RXDATA` after a completion (R84): only RDBIT and RDBYTE write it. -/
def rxdataAfter (s : State) : Byte :=
  if s.opc = 2#4 then sampledBit s.sh else if s.opc = 4#4 then s.sh else s.rxdata

/-- `complete(e)` of R84. -/
def complete (e : Err) (s : State) : State :=
  { s with fsm := .idle, dqOe := false, entry := false, busy := false, err := e,
           rstok := rstokAfter e s, rxdata := rxdataAfter s }

/-- `raise <Err>` inside issue: `ERR <- code`, and nothing else changes (R152). -/
def raise (e : Err) (s : State) : State := { s with err := e }

/-- The armed check of R63, which applies to the bit and byte commands only. -/
def whenArmed (effect : State → State) (s : State) : State :=
  if s.rstok then effect s else raise .notArmed s

/-- The issue step is enabled only while `cmd_ready = 1`; a command presented otherwise "is not accepted, has no
effect" (R45, R63; log 6). -/
def accept (effect : State → State) (s : State) : Result :=
  .next (if s.cmdReady then effect s else s)

/-- Hardware reset: every element of the block's state takes its reset value (R32, R170). The pins, the parameters and
the model's own fields are not the block's and stay (log 7). -/
def hardwareReset (s : State) : State :=
  { s with busy := false, rstok := false, err := .ok, rxdata := 0#8, crc := 0#8,
           fsm := .idle, tcnt := 0#9, entry := false, poll := 0#6, seenLow := false, bitcnt := 0#4, sh := 0#8, opc := 0#4,
           dqOe := false }

/-- While `rst_n = 0` every element of state holds its reset value (R170). -/
def holdReset (s : State) : State := if s.rstN then s else hardwareReset s

end Sys2Proof.Machine
end

