-- ==== Sys2Proof/Machine/BusBit.lean ====
section
/-! DEFINITION. Issuing the commands RESET, RDBIT and WRBIT (`40_bus_bit_ops.md` R83, R87 to R89). Each starts here, in
zero time; the ticks that follow (`Machine/Tick.lean`) run it to its completion. -/

namespace Sys2Proof.Machine

/-- `RESET` (R87): accepted whatever `RSTOK` is. -/
def execReset (s : State) : Result := accept startReset s

/-- `RDBIT` (R88): one read slot; `NOT_ARMED` when `RSTOK = 0`. -/
def execRdbit (s : State) : Result := accept (whenArmed (startSlots 2#4 0#8)) s

/-- `WRBIT b` (R89): one write slot; `ILLEGAL` when `imm8[7:1] ≠ 0`, tested first (R155), then `NOT_ARMED`. -/
def execWrbit (imm8 : Byte) (s : State) : Result :=
  accept (fun s => if isBitOperand imm8 then whenArmed (startSlots 3#4 imm8) s else raise .illegal s) s

end Sys2Proof.Machine
end

