-- ==== Sys2Proof/Machine/BusByte.lean ====
section
/-! DEFINITION. Issuing the commands RDBYTE and WRBYTE and the alias SENDCMD (`41_bus_byte_ops.md` R110 to R112). -/

namespace Sys2Proof.Machine

/-- `RDBYTE` (R110): eight read slots; `NOT_ARMED` when `RSTOK = 0`. -/
def execRdbyte (s : State) : Result := accept (whenArmed (startSlots 4#4 0#8)) s

/-- `WRBYTE v` (R111): eight write slots; `NOT_ARMED` when `RSTOK = 0`. -/
def execWrbyte (v : Byte) (s : State) : Result := accept (whenArmed (startSlots 5#4 v)) s

/-- `SENDCMD v` is `WRBYTE v` (R112). -/
def execSendcmd (v : Byte) (s : State) : Result := accept (whenArmed (startSlots 5#4 v)) s

end Sys2Proof.Machine
end

