-- ==== Sys2Proof/Machine/Crc.lean ====
section
/-! DEFINITION. The CRC8 generator (`42_crc8.md` R120, R121) and the commands CRCCLR and CRCBYTE (R122, R123). -/

namespace Sys2Proof.Machine

/-- The polynomial x^8+x^5+x^4+1 for a register that shifts towards bit 0 (R121). -/
def crcPoly : Byte := 0x8C#8

/-- One pass of the loop of R121: the feedback bit, the logical right shift, the conditional XOR. -/
def crcShift (c : Byte) (bit : Bool) : Byte :=
  if (c.getLsbD 0 ^^ bit) then (c >>> 1) ^^^ crcPoly else c >>> 1

/-- `crc8_step(c, b)` of R121: bit 0 of `b` first. -/
def crc8Step (c b : Byte) : Byte :=
  [0, 1, 2, 3, 4, 5, 6, 7].foldl (fun c i => crcShift c (b.getLsbD i)) c

/-- `crc8(bytes)` of R120: from `0x00`, in input order, no final XOR (log 11). -/
def crc8 (bytes : List Byte) : Byte := bytes.foldl crc8Step 0#8

/-- `CRCCLR` (R122): `CRC <- 0x00; ERR <- OK`, completing inside issue. -/
def execCrcclr (s : State) : Result := accept (fun s => { s with crc := 0#8, err := .ok }) s

/-- `CRCBYTE v` (R123): `CRC <- crc8_step(CRC, v); ERR <- OK`, completing inside issue. -/
def execCrcbyte (v : Byte) (s : State) : Result :=
  accept (fun s => { s with crc := crc8Step s.crc v, err := .ok }) s

end Sys2Proof.Machine
end

