-- ==== Sys2Proof/Syntax.lean ====
section
/-! DEFINITION. The command set OWTM-1 (`30_encoding.md` R62, R67), one constructor per row of
`spec/opcode_table.json`. -/

namespace Sys2Proof

/-- A command. No command has a register or an address operand (R61). -/
inductive Instr where
  /-- `RESET`: reset pulse and presence detection (R87). -/
  | reset
  /-- `RDBIT`: one read slot (R88). -/
  | rdbit
  /-- `WRBIT b`: one write slot (R89). The operand is kept as the byte `imm8` that the shift register is loaded with;
  the bit is `imm8[0]` and `imm8[7:1]` must be 0 (R61), which `Instr.WellFormed` says (log 13). -/
  | wrbit (imm8 : Byte)
  /-- `RDBYTE`: eight read slots (R110). -/
  | rdbyte
  /-- `WRBYTE v`: eight write slots (R111). -/
  | wrbyte (v : Byte)
  /-- `SENDCMD v`: the assembler alias of `WRBYTE v`, identical word (R112, log 8). -/
  | sendcmd (v : Byte)
  /-- `CRCCLR`: clear the CRC register (R122). -/
  | crcclr
  /-- `CRCBYTE v`: shift one byte into the CRC register (R123). -/
  | crcbyte (v : Byte)
deriving DecidableEq, Repr

end Sys2Proof
end

