-- ==== Sys2Proof/Machine/Dispatch.lean ====
section
/-! DEFINITION. The issue step of a legal command (`30_encoding.md` R63): one arm per command. -/

namespace Sys2Proof.Machine

def exec (i : Instr) (s : State) : Host.Outcome State Fault Refusal :=
  match i with
  | .reset => Sys2Proof.Machine.execReset s
  | .rdbit => Sys2Proof.Machine.execRdbit s
  | .wrbit imm8 => Sys2Proof.Machine.execWrbit imm8 s
  | .rdbyte => Sys2Proof.Machine.execRdbyte s
  | .wrbyte v => Sys2Proof.Machine.execWrbyte v s
  | .sendcmd v => Sys2Proof.Machine.execSendcmd v s
  | .crcclr => Sys2Proof.Machine.execCrcclr s
  | .crcbyte v => Sys2Proof.Machine.execCrcbyte v s

end Sys2Proof.Machine
end

