-- ==== Sys2Proof/WellFormed.lean ====
section
/-! DEFINITION. Which terms of `Instr` stand for legal commands (`30_encoding.md` R61, R64). -/

namespace Sys2Proof

/-- The one operand check the syntax leaves open: `WRBIT` requires `imm8[7:1] = 0` (R61). Every value of the byte
operands is legal (R64). -/
def Instr.wf : Instr → Bool
  | .reset => true
  | .rdbit => true
  | .wrbit imm8 => imm8.extractLsb' 1 7 == 0#7
  | .rdbyte => true
  | .wrbyte _ => true
  | .sendcmd _ => true
  | .crcclr => true
  | .crcbyte _ => true

/-- The instruction has a legal command word. -/
abbrev Instr.WellFormed (i : Instr) : Prop := i.wf = true

end Sys2Proof
end

