-- ==== Sys2Proof/Decode.lean ====
section
/-! DEFINITION. Decoding a command word (`30_encoding.md` R60 to R64), total on all 65 536 words and rejecting by
name, and the encoder, written from the same table. -/

namespace Sys2Proof

/-- Why a command word is illegal: the four cases of R64. -/
inductive DecodeError where
  /-- `rsv ≠ 0`. -/
  | reservedBits
  /-- `op` is one of 0, 6, 7, 10 to 15. -/
  | unassignedOpcode
  /-- `op` is 1, 2, 4 or 8 and `imm8 ≠ 0x00`. -/
  | operandNotZero
  /-- `op = 3` and `imm8[7:1] ≠ 0`. -/
  | bitOperandTooWide
deriving DecidableEq, Repr

/-- `rsv`, bits 15:12 (R60). -/
def rsvField (w : CmdWord) : BitVec 4 := w.extractLsb' 12 4

/-- `op`, bits 11:8 (R60). -/
def opField (w : CmdWord) : BitVec 4 := w.extractLsb' 8 4

/-- `imm8`, bits 7:0 (R60). -/
def immField (w : CmdWord) : Byte := w.extractLsb' 0 8

/-- A command without an operand requires `imm8 = 0x00` (R61). -/
def decodeNoOperand (i : Instr) (imm8 : Byte) : Except DecodeError Instr :=
  if imm8 = 0#8 then .ok i else .error .operandNotZero

/-- `WRBIT` requires `imm8[7:1] = 0` (R61). -/
def decodeBitOperand (imm8 : Byte) : Except DecodeError Instr :=
  if imm8.extractLsb' 1 7 = 0#7 then .ok (.wrbit imm8) else .error .bitOperandTooWide

/-- The opcode map of R62. `0x05vv` decodes to `WRBYTE`: the block cannot tell `SENDCMD` from it (R67, R112). -/
def decodeOp (op : BitVec 4) (imm8 : Byte) : Except DecodeError Instr :=
  if op = 1#4 then decodeNoOperand .reset imm8
  else if op = 2#4 then decodeNoOperand .rdbit imm8
  else if op = 3#4 then decodeBitOperand imm8
  else if op = 4#4 then decodeNoOperand .rdbyte imm8
  else if op = 5#4 then .ok (.wrbyte imm8)
  else if op = 8#4 then decodeNoOperand .crcclr imm8
  else if op = 9#4 then .ok (.crcbyte imm8)
  else .error .unassignedOpcode

/-- The command a word stands for, or why it is illegal (R63, R64). -/
def decode (w : CmdWord) : Except DecodeError Instr :=
  if rsvField w = 0#4 then decodeOp (opField w) (immField w) else .error .reservedBits

/-- The opcode of a command (R62). -/
def Instr.opcode : Instr → BitVec 4
  | .reset => 1#4
  | .rdbit => 2#4
  | .wrbit _ => 3#4
  | .rdbyte => 4#4
  | .wrbyte _ => 5#4
  | .sendcmd _ => 5#4
  | .crcclr => 8#4
  | .crcbyte _ => 9#4

/-- The operand byte of a command; `0x00` where it takes none (R61). -/
def Instr.operand : Instr → Byte
  | .reset => 0#8
  | .rdbit => 0#8
  | .wrbit imm8 => imm8
  | .rdbyte => 0#8
  | .wrbyte v => v
  | .sendcmd v => v
  | .crcclr => 0#8
  | .crcbyte v => v

/-- The command word `{0000, op, imm8}` of a command (R60, R62). -/
def encode (i : Instr) : CmdWord := 0#4 ++ i.opcode ++ i.operand

/-- The command the block sees: an assembler alias stands for its core command (R67, R112). -/
def Instr.core : Instr → Instr
  | .reset => .reset
  | .rdbit => .rdbit
  | .wrbit imm8 => .wrbit imm8
  | .rdbyte => .rdbyte
  | .wrbyte v => .wrbyte v
  | .sendcmd v => .wrbyte v
  | .crcclr => .crcclr
  | .crcbyte v => .crcbyte v

/-- The command word that an instruction of `nbits` bits `w` puts on the port: every bit above `nbits` is 0. There is
one command length, 16 bits, one word (R60). -/
def wordOfTableBits (nbits w : Nat) : CmdWord := BitVec.ofNat 16 (w % 2 ^ nbits)

/-- What the decoder reads from the bits of an opcode-table row. -/
def decodeTableWord (nbits w : Nat) : Option Instr :=
  match decode (wordOfTableBits nbits w) with
  | .ok i => some i
  | .error _ => none

end Sys2Proof
end

