-- ==== Sys2Proof/Machine/Tick.lean ====
section
/-! DEFINITION. The timing state machine: `advance` (`40_bus_bit_ops.md` R81) and `tick` (R82). -/

namespace Sys2Proof.Machine

/-- The end-of-slot arm of `advance()`; its tests use the values just written (R81). -/
def endOfSlot (s : State) : State :=
  if s.opc = 2#4 ∨ s.opc = 3#4 then complete .ok s
  else
    let t := { s with bitcnt := s.bitcnt + 1#4, sh := if s.opc = 5#4 then shiftOut s.sh else s.sh }
    if t.bitcnt = 8#4 then complete .ok t else startSlot t

/-- `advance()` of R81, executed by the tick that brings `tcnt` to 0. R81 has no case for `IDLE`, where no tick counts
(R82; log 17). -/
def advance (s : State) : State :=
  match s.fsm with
  | .idle => s
  | .rstLow => enter .rstWait s
  | .rstWait => enter .rstPoll s
  | .rstPoll => if s.poll = s.cfg.nPoll then complete .noPresence s else enter .rstPoll s
  | .rstGuard => complete .ok s
  | .rdLow => enter .rdWait s
  | .rdWait => enter .rdRec s
  | .rdRec => endOfSlot s
  | .w1Low => enter .w1Rec s
  | .w1Rec => endOfSlot s
  | .w0Low => enter .w0Rec s
  | .w0Rec => endOfSlot s

/-- One presence-poll iteration's sample (R82). -/
def presenceSample (level : Bool) (s : State) : State :=
  if level = false then { s with seenLow := true, poll := s.poll + 1#6 }
  else if s.seenLow then { s with fsm := .rstGuard, tcnt := s.cfg.tRstguard }
  else { s with poll := s.poll + 1#6 }

/-- The on-entry part of a tick (R82): the first tick of `RD_REC` or `RST_POLL` takes its sample. -/
def sampleOnEntry (level : Bool) (s : State) : State :=
  if s.entry then
    match s.fsm with
    | .rdRec => { s with entry := false, sh := shiftIn level s.sh }
    | .rstPoll => presenceSample level { s with entry := false }
    | .idle | .rstLow | .rstWait | .rstGuard | .rdLow | .rdWait | .w1Low | .w1Rec | .w0Low | .w0Rec =>
      { s with entry := false }
  else s

/-- The counting part of a tick (R82): `tcnt <- tcnt - 1`, and `advance()` when it reaches 0. -/
def countDown (s : State) : State :=
  let t := { s with tcnt := s.tcnt - 1#9 }
  if t.tcnt = 0#9 then advance t else t

/-- `tick(dev)` of R82: one microsecond passes. -/
def tick (dev : Bool) (s : State) : State :=
  if s.fsm = .idle then s else countDown (sampleOnEntry (line dev s.dqOe) s)

/-- The microseconds of a list of environment bits, in order. -/
def ticks (devs : List Bool) (s : State) : State := devs.foldl (fun t dev => tick dev t) s

end Sys2Proof.Machine
end

