-- ==== Sys2Proof/Machine/Ports.lean ====
section
/-! DEFINITION. What comes in from outside: the events of R7 and R170, and fetching a command from the command port
(`20_memory.md` R45, R56). -/

namespace Sys2Proof.Machine

/-- One event, with `rst_n` already acted on. -/
def applyEvent (e : Event) (s : State) : State :=
  match e with
  | .present w => { s with cmdValid := true, cmd := w }
  | .withdraw => { s with cmdValid := false }
  | .readStatus a => { s with srAddr := a }
  | .tick dev => tick dev s
  | .rstAssert => { s with rstN := false }
  | .rstRelease => { s with rstN := true }

/-- One event as the block meets it: while `rst_n = 0` every element holds its reset value, from the moment of
assertion (R170). -/
def deliver (e : Event) (s : State) : State := holdReset (applyEvent e (holdReset s))

/-- The next event: the head of the inbox, or, when the inbox says nothing more, one that nothing constrains
(log 1, log 2). -/
def nextEvent (s : State) : Event × State :=
  match s.inbox with
  | e :: rest => (e, { s with inbox := rest })
  | [] => (Config.freeEvent s.draws, { s with draws := s.draws + 1 })

/-- The outside acts once. -/
def environment (s : State) : State := deliver (nextEvent s).1 (nextEvent s).2

/-- What the command port gives the next step. -/
inductive Fetched where
  /-- A legal command is accepted; the host then drops `cmd_valid` (log 3). -/
  | command (i : Instr) (s : State)
  /-- An illegal word is accepted: it completes inside issue with this state (R64, R153). -/
  | illegal (s : State)
  /-- No command is accepted. -/
  | nothing
deriving DecidableEq, Repr

/-- A command is accepted when `cmd_valid = 1` and `cmd_ready = 1` (R45), and taken by value at that moment (R56). -/
def fetch (s : State) : Fetched :=
  if s.cmdValid && s.cmdReady then
    match decode s.cmd with
    | .ok i => .command i { s with cmdValid := false }
    | .error _ => .illegal (raise .illegal { s with cmdValid := false })
  else .nothing

/-- The block made ready, where it is not: no command in progress and the line released. -/
def makeReady (s : State) : State :=
  if s.cmdReady then s else { s with rstN := true, busy := false, fsm := .idle, tcnt := 0#9, entry := false, dqOe := false }

/-- The word put on the command port of a ready block, which is where the step takes its next command (log 9). -/
def placeCommand (nbits w : Nat) (s : State) : State :=
  { makeReady s with cmdValid := true, cmd := wordOfTableBits nbits w }

end Sys2Proof.Machine
end

