-- ==== Sys2Proof/Machine/Step.lean ====
section
/-! DEFINITION. One step (`00_scope.md` R7): the issue step when a command is accepted, otherwise one event from
outside (a microsecond, a pin of the host's, hardware reset). -/

namespace Sys2Proof.Machine

/-- One step of the machine. -/
def step (s : State) : Host.Outcome State Fault Refusal :=
  match fetch s with
  | .command i t => exec i t
  | .illegal t => .next t
  | .nothing => .next (environment s)

/-- The state with an instruction where the step fetches its next one. -/
def State.withFetchWord (s : State) (nbits w : Nat) : State := placeCommand nbits w s

end Sys2Proof.Machine
end

