-- ==== Sys2Proof/Machine/Assembly.lean ====
section
/-! DEFINITION. The assembler's side of the command set (`30_encoding.md` R66, R67): how a command is written, and the
pseudo-instructions, each of which expands to commands and has no encoding of its own. -/

namespace Sys2Proof.Machine

/-- One hexadecimal digit, in capitals (R66's examples). -/
def hexDigit (n : BitVec 4) : String :=
  (["0", "1", "2", "3", "4", "5", "6", "7", "8", "9", "A", "B", "C", "D", "E", "F"]).getD n.toNat "0"

/-- A byte as `0x..`, two digits (R9). -/
def hexByte (v : Byte) : String := "0x" ++ hexDigit (v.extractLsb' 4 4) ++ hexDigit (v.extractLsb' 0 4)

/-- A bit operand. An ill-formed one is shown as the byte it is. -/
def bitText (v : Byte) : String := if v = 0 then "0" else if v = 1 then "1" else hexByte v

/-- The mnemonic in capitals followed by the operand, if any (R66). -/
def assembly : Instr → String
  | .reset => "RESET"
  | .rdbit => "RDBIT"
  | .wrbit imm8 => "WRBIT " ++ bitText imm8
  | .rdbyte => "RDBYTE"
  | .wrbyte v => "WRBYTE " ++ hexByte v
  | .sendcmd v => "SENDCMD " ++ hexByte v
  | .crcclr => "CRCCLR"
  | .crcbyte v => "CRCBYTE " ++ hexByte v

/-- An 8-byte ROM code, byte 0 (the family code) first (R135). -/
abbrev RomCode := Vector Byte 8

/-- The 1-Wire command bytes (R130): "wire-format constants, must match exactly". -/
def byteSearchRom : Byte := 0xF0
/-- Match-ROM (R130). -/
def byteMatchRom : Byte := 0x55
/-- Skip-ROM (R130). -/
def byteSkipRom : Byte := 0xCC
/-- Convert-Temperature (R130). -/
def byteConvert : Byte := 0x44
/-- Read-Scratchpad (R130). -/
def byteReadScratchpad : Byte := 0xBE

/-- The pseudo-instructions of R67. -/
inductive Pseudo where
  | sendcmd (v : Byte)
  | skiprom
  | matchrom (code : RomCode)
  | searchrom
  | convert
  | rdscratch
  | crc8 (bytes : List Byte)
deriving DecidableEq, Repr

/-- The expansion column of R67. -/
def expand : Pseudo → List Instr
  | .sendcmd v => [.wrbyte v]
  | .skiprom => [.sendcmd byteSkipRom]
  | .matchrom code => .sendcmd byteMatchRom :: code.toList.map .wrbyte
  | .searchrom => [.sendcmd byteSearchRom]
  | .convert => [.sendcmd byteConvert]
  | .rdscratch => [.sendcmd byteReadScratchpad]
  | .crc8 bytes => .crcclr :: bytes.map .crcbyte

end Sys2Proof.Machine
end

