-- ==== Sys2Proof/Machine/HostProgram.lean ====
section
/-! DEFINITION. Programs of the host over the block (`30_encoding.md` R66): commands, between which the host waits for
`cmd_ready = 1` and may read the status registers, with the control flow the host's own. NOT PART OF THE BLOCK
(`00_scope.md` R4 (a)): no step of the machine calls anything of this file (log 15). -/

namespace Sys2Proof.Machine

/-- What the host can read when a command has completed: `-> STATUS`, `-> RXDATA`, `-> CRC` (R66). -/
structure Reply where
  err : Err
  rxdata : Byte
  crc : Byte
deriving DecidableEq, Repr

/-- A program of the host with a result of type `α`: it ends, or issues one command and goes on with what it reads. -/
inductive HostProgram (α : Type) where
  | done (result : α)
  | issue (command : Instr) (next : Reply → HostProgram α)

/-- One program after another. -/
def HostProgram.bind {α β : Type} (rest : α → HostProgram β) : HostProgram α → HostProgram β
  | .done result => rest result
  | .issue command next => .issue command (fun reply => (next reply).bind rest)

/-- A program with its result converted. -/
def HostProgram.map {α β : Type} (f : α → β) (program : HostProgram α) : HostProgram β :=
  program.bind (fun result => .done (f result))

/-- A list of commands of whose results nothing is read, then a program. -/
def issueThen {α : Type} (commands : List Instr) (rest : HostProgram α) : HostProgram α :=
  commands.foldr (fun command program => .issue command (fun _ => program)) rest

/-- A command of which the host reads `RXDATA` only. -/
def readByte {α : Type} (command : Instr) (next : Byte → HostProgram α) : HostProgram α :=
  .issue command (fun reply => next reply.rxdata)

/-- `RESET`, and the rest only if it succeeded (R131): otherwise the rest of the cycle is abandoned. -/
def afterReset {α : Type} (failed : α) (rest : HostProgram α) : HostProgram α :=
  .issue .reset (fun reply => if reply.err = .ok then rest else .done failed)

/-! ## Against any bus: `answer` gives the reply to a command from all commands so far, the latest first -/

/-- The result of a program. -/
def HostProgram.result {α : Type} (answer : List Instr → Reply) : HostProgram α → List Instr → α
  | .done result, _ => result
  | .issue command next, past => (next (answer (command :: past))).result answer (command :: past)

/-- The commands a program issues, in order. -/
def HostProgram.commands {α : Type} (answer : List Instr → Reply) : HostProgram α → List Instr → List Instr
  | .done _, _ => []
  | .issue command next, past => command :: (next (answer (command :: past))).commands answer (command :: past)

/-! ## Against the block: `env` gives the environment bit of every microsecond -/

/-- The registers as the host reads them. -/
def State.reply (s : State) : Reply := { err := s.err, rxdata := s.rxdata, crc := s.crc }

/-- The issue step as a function of states; no command faults or is refused (`EveryStepAnswersNext`), and on a block that
is not ready it has no effect (R45, log 6). -/
def acceptedState (command : Instr) (s : State) : State :=
  match exec command s with
  | .next t => t
  | .fault _ => s
  | .refused _ => s

/-- Waiting for `cmd_ready = 1` (R66), `limit` microseconds at most, from time `now`. -/
def awaitReady (env : Nat → Bool) : Nat → Nat × State → Nat × State
  | 0, now => now
  | limit + 1, (now, s) => if s.busy then awaitReady env limit (now + 1, tick (env now) s) else (now, s)

/-- The longest a timed command lasts over the ranges of R5 (R91). -/
def longestCommand : Nat := 770

/-- A program run over the block: its result, the time it ends, and the block then (R182). DESIGN CHOICE (log 20): when
the block is busy at the start of the program, the host holds its first command until the block is ready, which is one of
the two things R45 lets it do; R66 speaks only of waiting between commands. During hardware reset, which does not end
within a run, a command has no effect and the host reads the registers as they are. -/
def HostProgram.runOn {α : Type} (env : Nat → Bool) : HostProgram α → Nat × State → α × Nat × State
  | .done result, now => (result, now)
  | .issue command next, (now, s) =>
    let start := awaitReady env longestCommand (now, s)
    let finish := awaitReady env longestCommand (start.1, acceptedState command start.2)
    (next finish.2.reply).runOn env finish

end Sys2Proof.Machine
end

