-- ==== Sys2Proof/Machine/HostSoftware.lean ====
section
/-! DEFINITION. The host software around the block (`44_host_sequences.md` R130 to R141) as programs of the host. NOT
PART OF THE BLOCK (`00_scope.md` R4 (a)): no step of the machine calls anything of this file (log 15). Its two
parameters of R5, `MAX_DEVICES` and `MAX_CONV_POLL`, are the fields of `Config.HostLimits`. DESIGN CHOICE (log 21): of the
two hosts that `93_implementation_defined.md` U6 allows, the programs are the one that does not check the CRC of a ROM
code or of a scratchpad before use, which is the reference's. -/

namespace Sys2Proof.Machine

/-- The error kinds of the software layers (R140); the block raises only the first. No program here raises
`scratchpadCrcMismatch`, a "recommended addition", since none validates (log 21). -/
inductive SoftwareError where
  | noPresence
  | noDevicesResponding
  | conversionTimeout
  | scratchpadCrcMismatch
deriving DecidableEq, Repr

/-! ## Device session -/

/-- `skip_rom()` (R132). -/
def skipRom : List Instr := expand .skiprom

/-- `match_rom(code)` (R133). -/
def matchRom (code : RomCode) : List Instr := expand (.matchrom code)

/-- "address (match or skip)" (R134). -/
inductive Addressing where
  | skip
  | match (code : RomCode)
deriving DecidableEq, Repr

/-- The commands that address one device or all. -/
def Addressing.commands : Addressing → List Instr
  | .skip => skipRom
  | .match code => matchRom code

/-- How the conversion poll of R134 ends; `stillPolling` says that it has not ended in the polls looked at, which an
absent cap allows for ever (`93_implementation_defined.md` U5). -/
inductive PollEnd where
  | converted
  | timeout
  | stillPolling
deriving DecidableEq, Repr

/-- The conversion poll of R134: `RDBYTE` until a byte is nonzero, at most `cap` times if there is a cap. The first
argument is how many polls are looked at, the second is `n`. -/
def pollConversion (cap : Option Nat) : Nat → Nat → HostProgram PollEnd
  | 0, _ => .done .stillPolling
  | polls + 1, n =>
    readByte .rdbyte fun v =>
      if v ≠ 0 then .done .converted
      else if cap = some (n + 1) then .done .timeout
      else pollConversion cap polls (n + 1)

/-- The end of `convert_and_read` (R134): read exactly two bytes, which are not checked against a CRC (log 21). -/
def readScratchpad (addressing : Addressing) : HostProgram (Option (Except SoftwareError (Byte × Byte))) :=
  afterReset (some (.error .noPresence)) <|
    issueThen (addressing.commands ++ [.sendcmd byteReadScratchpad]) <|
      readByte .rdbyte fun lsb => readByte .rdbyte fun msb => .done (some (.ok (lsb, msb)))

/-- `convert_and_read(addressing)` (R134), looking at `polls` polls; `none` says that it is still polling after them. The
bytes are returned without validation, the model's choice of U6's two (log 21). -/
def convertAndRead (limits : Config.HostLimits) (polls : Nat) (addressing : Addressing) :
    HostProgram (Option (Except SoftwareError (Byte × Byte))) :=
  afterReset (some (.error .noPresence)) <|
    issueThen (addressing.commands ++ [.sendcmd byteConvert]) <|
      (pollConversion limits.maxConvPoll polls 0).bind fun
        | .stillPolling => .done none
        | .timeout => .done (some (.error .conversionTimeout))
        | .converted => readScratchpad addressing

/-- A checksum on the block's CRC register (R123, R126, R140): `CRC8 b0..b(n-1)` of R67, then read `CRC`. What a host
that validates would use; no program here does (log 21). -/
def crcOnBlock (bytes : List Byte) : HostProgram Byte :=
  bytes.foldl (fun program v => program.bind fun _ => .issue (.crcbyte v) fun reply => .done reply.crc)
    (.issue .crcclr fun reply => .done reply.crc)

/-! ## ROM search -/

/-- Bit position `pos` (1 to 64) of a ROM code: bit `(pos-1) mod 8` of byte `(pos-1) div 8` (R135). -/
def romBit (code : RomCode) (pos : Nat) : Bool := (code.toList.getD ((pos - 1) / 8) 0).getLsbD ((pos - 1) % 8)

/-- The 64 bits of a ROM code in line order (R49, R135). -/
def romBits (code : RomCode) : List Bool := (List.range 64).map (fun k => romBit code (k + 1))

/-- A byte from bits, first bit in bit 0 (R48). -/
def byteOfBits (bits : List Bool) : Byte :=
  bits.foldr (fun b acc => (acc <<< 1) ||| (BitVec.ofBool b).setWidth 8) 0

/-- A ROM code from its 64 bits in line order. -/
def romOfBits (bits : List Bool) : RomCode := Vector.ofFn (fun i => byteOfBits ((bits.drop (8 * i.val)).take 8))

/-- "byte 7 = CRC8 of bytes 0–6" (R135). -/
def romIntact (code : RomCode) : Bool := crc8 (code.toList.take 7) == code.toList.getD 7 0

/-- The in-progress 64-bit ROM buffer (R136); position `pos` of R138 is element `pos - 1`. -/
abbrev RomBuffer := Vector Bool 64

/-- The state of one enumeration's search (R136), owned by its caller. `lastDiscrepancy` is a position 1 to 64, or 0 for
none. `started` tells `NOT_STARTED` from the other two states of R136's machine. -/
structure SearchState where
  lastDiscrepancy : Fin 65
  doneFlag : Bool
  rom : RomBuffer
  started : Bool
deriving DecidableEq, Repr

/-- R136: "State machine over {NOT_STARTED, SEARCHING, EXHAUSTED}". -/
inductive SearchPhase where
  | notStarted
  | searching
  | exhausted
deriving DecidableEq, Repr

/-- `NOT_STARTED` before `first()`; then `EXHAUSTED` once `doneFlag` is true, `SEARCHING` while it is false (R136). -/
def SearchState.phase (S : SearchState) : SearchPhase :=
  if S.started = false then .notStarted else if S.doneFlag then .exhausted else .searching

/-- A search state before `first()`. DESIGN CHOICE (log 19): the spec gives no contents for it; `first()` overwrites the
first two fields, and the pass it runs does not read the buffer. -/
def SearchState.new : SearchState :=
  { lastDiscrepancy := 0, doneFlag := false, rom := Vector.replicate 64 false, started := false }

/-- The ends of `next_step()` (R138): its two "NoCode" and its "NoDevicesResponding" are three distinct results
(`93_implementation_defined.md` U11). -/
inductive SearchResult where
  | exhausted
  | noPresence
  | noDevicesResponding
  | code (rom : RomCode)
deriving DecidableEq, Repr

/-- The bit chosen at a position (R138; `90_conflicts.md` C3), from the pair read there. `none` is the raw pair 11. -/
def searchChoice (last pos : Nat) (previous a c : Bool) : Option Bool :=
  if a && c then none
  else if a != c then some a
  else if pos = last then some true
  else if pos > last then some false
  else some previous

/-- The marker after a position: that position at a discrepancy where 0 was chosen (R138). -/
def searchMarker (k : Fin 64) (a c bit : Bool) (marker : Fin 65) : Fin 65 :=
  if !a && !c && !bit then k.succ else marker

/-- Where one pass of the position loop of R138 ends: the ROM buffer, the marker, and whether all positions were
reached. -/
structure SearchPass where
  rom : RomBuffer
  marker : Fin 65
  complete : Bool
deriving DecidableEq, Repr

/-- The position loop of R138 over the positions of a list (element `k` is position `k + 1`): two RDBITs, the choice, its
bit into the ROM buffer and onto the line. -/
def searchLoop (last : Fin 65) : List (Fin 64) → Fin 65 → RomBuffer → HostProgram SearchPass
  | [], marker, rom => .done { rom := rom, marker := marker, complete := true }
  | k :: rest, marker, rom =>
    readByte .rdbit fun first => readByte .rdbit fun second =>
      let a := lowBit first
      let c := lowBit second
      match searchChoice last.val (k.val + 1) rom[k.val] a c with
      | none => .done { rom := rom, marker := marker, complete := false }
      | some bit =>
        .issue (.wrbit ((BitVec.ofBool bit).setWidth 8)) fun _ =>
          searchLoop last rest (searchMarker k a c bit marker) (rom.set k.val bit k.isLt)

/-- What `next_step()` makes of its pass (R138). -/
def searchOutcome (S : SearchState) (pass : SearchPass) : SearchState × SearchResult :=
  if pass.complete then
    ({ S with lastDiscrepancy := pass.marker, doneFlag := decide (pass.marker = 0), rom := pass.rom },
      .code (romOfBits pass.rom.toList))
  else ({ S with lastDiscrepancy := 0, rom := pass.rom }, .noDevicesResponding)

/-- `next_step()` (R138): at `EXHAUSTED` no command; otherwise RESET, Search-ROM and the 64 positions. -/
def searchNext (S : SearchState) : HostProgram (SearchState × SearchResult) :=
  if S.doneFlag then .done ({ S with lastDiscrepancy := 0 }, .exhausted)
  else
    .issue .reset fun reply =>
      if reply.err = .noPresence then .done ({ S with lastDiscrepancy := 0 }, .noPresence)
      else
        issueThen (expand .searchrom) <|
          (searchLoop S.lastDiscrepancy (List.finRange 64) 0 S.rom).map (searchOutcome S)

/-- `first()` (R137): resets `lastDiscrepancy` and `doneFlag`, then delegates to `next_step()`. -/
def searchFirst (S : SearchState) : HostProgram (SearchState × SearchResult) :=
  searchNext { S with lastDiscrepancy := 0, doneFlag := false, started := true }

/-- Why an enumeration ends (R139): `doneFlag` became true, the cap on devices was reached, or `next_step()` reported a
failure. DESIGN CHOICE (log 18): R139 says only "reports failure", and `93_implementation_defined.md` U11 leaves open how
a caller reports the three ends of `next_step()`; this one hands each on as it is, beside the codes found before it. -/
inductive EnumerationEnd where
  | allFound
  | deviceCap
  | exhausted
  | noPresence
  | noDevicesResponding
deriving DecidableEq, Repr

/-- What an enumeration gives: the found-ROM table, built from nothing (R139), the search state it leaves, and why it
ended. -/
structure Enumeration where
  codes : List RomCode
  state : SearchState
  ending : EnumerationEnd
deriving DecidableEq, Repr

/-- The steps of an enumeration from one call of `first()` or `next_step()` on, with room for `room` more codes after
that call's. A code is taken as it is, without a check of its CRC, the model's choice of U6's two (log 21). -/
def enumerateFrom : Nat → HostProgram (SearchState × SearchResult) → HostProgram Enumeration
  | room, call =>
    call.bind fun
      | (S, .exhausted) => .done { codes := [], state := S, ending := .exhausted }
      | (S, .noPresence) => .done { codes := [], state := S, ending := .noPresence }
      | (S, .noDevicesResponding) => .done { codes := [], state := S, ending := .noDevicesResponding }
      | (S, .code rom) =>
        if S.doneFlag then .done { codes := [rom], state := S, ending := .allFound }
        else
          match room with
          | 0 => .done { codes := [rom], state := S, ending := .deviceCap }
          | more + 1 => (enumerateFrom more (searchNext S)).map fun E => { E with codes := rom :: E.codes }

/-- The enumeration driver (R139): `first()`, then `next_step()` until one reports failure, `doneFlag` is true, or
`MAX_DEVICES` codes are found. How it reports the three failures is the model's choice (log 18). -/
def enumerate (limits : Config.HostLimits) (S : SearchState) : HostProgram Enumeration :=
  enumerateFrom (limits.maxDevices - 1) (searchFirst S)

/-- The bits written to the line since the last Search-ROM, the latest first, and whether one RDBIT has been issued
after the last of them, from all commands so far (the latest first). -/
def searchProgress : List Instr → List Bool × Bool
  | [] => ([], false)
  | .rdbit :: past => ((searchProgress past).1, !(searchProgress past).2)
  | .wrbit imm8 :: past => (lowBit imm8 :: (searchProgress past).1, false)
  | .reset :: _ => ([], false)
  | .sendcmd _ :: _ => ([], false)
  | .rdbyte :: past => searchProgress past
  | .wrbyte _ :: past => searchProgress past
  | .crcclr :: past => searchProgress past
  | .crcbyte _ :: past => searchProgress past

/-- What the host reads when exactly the devices with these codes are on the bus and it searches (R143 (a), (d)): RESET
finds a presence if there is a device; the devices still taking part are those whose bits so far were written back; the
first RDBIT reads the wired AND of their bits and the second of the complements (`90_conflicts.md` C2). -/
def searchAnswer (codes : List (List Bool)) : List Instr → Reply
  | .rdbit :: past =>
    let path := (searchProgress past).1.reverse
    let bits := (codes.filter (fun code => path.isPrefixOf code)).map (fun code => code.getD path.length false)
    let level := if (searchProgress past).2 then bits.all (fun b => !b) else bits.all (fun b => b)
    { err := .ok, rxdata := (BitVec.ofBool level).setWidth 8, crc := 0#8 }
  | .reset :: _ => { err := if codes.isEmpty then .noPresence else .ok, rxdata := 0#8, crc := 0#8 }
  | _ => { err := .ok, rxdata := 0#8, crc := 0#8 }

/-! ## Temperature decoder -/

/-- Integer part of the temperature, the reference's sign rule kept (R141). -/
def temperatureInteger (lsb msb : Byte) : Int :=
  let magnitude : Int := ((msb &&& 0x07) <<< 4 ||| lsb >>> 4).toNat
  if msb &&& 0x80 = 0 then magnitude else -(127 - magnitude)

/-- Fractional part in ten-thousandths of a degree (R141, `90_conflicts.md` C6). -/
def temperatureFraction (lsb : Byte) : Nat := (lsb &&& 0x0F).toNat * 625

/-- The text form: a comma as decimal mark, exactly one leading zero when the fraction is below 1000 (R141). -/
def temperatureText (lsb msb : Byte) : String :=
  let fraction := temperatureFraction lsb
  toString (temperatureInteger lsb msb) ++ "," ++ (if fraction < 1000 then "0" else "") ++ toString fraction ++ "°C"

end Sys2Proof.Machine
end

