-- ==== Sys2Proof/Safety.lean ====
section
/-! DEFINITION. What counts as a sound state of the block (`10_state.md` R33, strengthened to an invariant that a step
keeps), and the words in which claims speak of runs of many microseconds. -/

namespace Sys2Proof.Machine

/-- The phases of RESET (R80). -/
def Phase.ofReset : Phase → Bool
  | .rstLow | .rstWait | .rstPoll | .rstGuard => true
  | .idle | .rdLow | .rdWait | .rdRec | .w1Low | .w1Rec | .w0Low | .w0Rec => false

/-- The phases of a read slot (R80, R85). -/
def Phase.ofRead : Phase → Bool
  | .rdLow | .rdWait | .rdRec => true
  | .idle | .rstLow | .rstWait | .rstPoll | .rstGuard | .w1Low | .w1Rec | .w0Low | .w0Rec => false

/-- The phases of a write slot (R80, R86). -/
def Phase.ofWrite : Phase → Bool
  | .w1Low | .w1Rec | .w0Low | .w0Rec => true
  | .idle | .rstLow | .rstWait | .rstPoll | .rstGuard | .rdLow | .rdWait | .rdRec => false

/-- R33 (a), (b), (d), and R23's "left at 0 with `fsm = IDLE`"; a sample is pending only in a phase that takes one. -/
abbrev State.ControlOk (s : State) : Prop :=
  (s.busy = false ↔ s.fsm = .idle) ∧
  (s.fsm = .idle → s.entry = false ∧ s.tcnt = 0#9) ∧
  s.dqOe = s.fsm.drive ∧
  (s.entry = true → s.fsm.samplesOnEntry = true)

/-- R33 (c), sharpened: a running phase has between one and all of its ticks left. -/
abbrev State.CountOk (s : State) : Prop :=
  s.fsm ≠ .idle → 1 ≤ s.tcnt.toNat ∧ s.tcnt.toNat ≤ (s.fsm.duration s.cfg).toNat

/-- R33 (f), and how far each command has come in each of its phases. -/
abbrev State.ProgressOk (s : State) : Prop :=
  s.poll.toNat ≤ s.cfg.nPoll.toNat ∧ s.bitcnt.toNat ≤ 8 ∧
  (s.fsm = .rstLow ∨ s.fsm = .rstWait → s.poll = 0#6 ∧ s.seenLow = false) ∧
  (s.fsm = .rstPoll → s.entry = true → s.poll.toNat < s.cfg.nPoll.toNat) ∧
  (s.fsm = .rstGuard → s.seenLow = true) ∧
  (s.fsm.ofRead = true ∨ s.fsm.ofWrite = true → s.bitcnt.toNat < 8)

/-- The command in progress is one that has the current phase (R80, R83), and `RSTOK` is what it must be while that
command runs (R13, R63). -/
abbrev State.CommandOk (s : State) : Prop :=
  (s.fsm.ofReset = true → s.opc = 1#4 ∧ s.rstok = false) ∧
  (s.fsm.ofRead = true → (s.opc = 2#4 ∨ s.opc = 4#4) ∧ s.rstok = true) ∧
  (s.fsm.ofWrite = true → (s.opc = 3#4 ∨ s.opc = 5#4) ∧ s.rstok = true)

/-- While `rst_n = 0` every element of the block's state holds its reset value (R170). -/
abbrev State.ResetHeld (s : State) : Prop := s.rstN = false → hardwareReset s = s

/-- The invariant of the block, with timing parameters in the ranges of R5. -/
abbrev State.Inv (s : State) : Prop :=
  s.cfg.Legal ∧ s.ControlOk ∧ s.CountOk ∧ s.ProgressOk ∧ s.CommandOk ∧ s.ResetHeld

/-- `dq_oe` during each tick of a run, first tick first: the value a step finds is in force during the tick (R30, R44). -/
def driveTrace : List Bool → State → List Bool
  | [], _ => []
  | dev :: devs, s => s.dqOe :: driveTrace devs (tick dev s)

/-- Commands issued one after the other with no tick between them, stopping at a fault or a refusal. -/
def issueAll : List Instr → State → Result
  | [], s => .next s
  | i :: is, s =>
    match exec i s with
    | .next t => issueAll is t
    | .fault r => .fault r
    | .refused r => .refused r

/-- Issue a command and let the microseconds of `devs` pass. -/
def runCommand (i : Instr) (devs : List Bool) (s : State) : State :=
  match exec i s with
  | .next t => ticks devs t
  | .fault _ => s
  | .refused _ => s

/-- `dq_oe` during each tick of `runCommand`. -/
def runTrace (i : Instr) (devs : List Bool) (s : State) : List Bool :=
  match exec i s with
  | .next t => driveTrace devs t
  | .fault _ => []
  | .refused _ => []

/-- Commands run one after the other, each with its own microseconds and with no tick between them. -/
def runCommands (cmds : List (Instr × List Bool)) (s : State) : State :=
  cmds.foldl (fun t c => runCommand c.1 c.2 t) s

/-- `dq_oe` during each tick of `runCommands`. -/
def runTraces : List (Instr × List Bool) → State → List Bool
  | [], _ => []
  | c :: cmds, s => runTrace c.1 c.2 s ++ runTraces cmds (runCommand c.1 c.2 s)

/-- The length of a read slot in ticks (R85). -/
def readSlotLength (c : Config.Timing) : Nat := c.tRdlow.toNat + c.tRdsample.toNat + c.tRdrec.toNat

/-- The length of the write slot of a bit (R86). -/
def writeSlotLength (c : Config.Timing) (b : Bool) : Nat :=
  if b then c.tW1low.toNat + c.tW1rec.toNat else c.tW0low.toNat + c.tW0rec.toNat

/-- `dq_oe` over a read slot (R85). -/
def readSlotTrace (c : Config.Timing) : List Bool :=
  List.replicate c.tRdlow.toNat true ++ List.replicate (c.tRdsample.toNat + c.tRdrec.toNat) false

/-- `dq_oe` over the write slot of a bit (R86). -/
def writeSlotTrace (c : Config.Timing) (b : Bool) : List Bool :=
  if b then List.replicate c.tW1low.toNat true ++ List.replicate c.tW1rec.toNat false
  else List.replicate c.tW0low.toNat true ++ List.replicate c.tW0rec.toNat false

/-- The tick of the first presence sample, `t0 = T_RSTL + T_RSTREL` (R87). -/
def firstSampleTick (c : Config.Timing) : Nat := c.tRstl.toNat + c.tRstrel.toNat

/-- The duration of WRBYTE: the eight write slots of the operand's bits (R113). -/
def byteWriteLength (c : Config.Timing) (v : Byte) : Nat :=
  ((List.range 8).map (fun i => writeSlotLength c (v.getLsbD i))).sum

/-- The duration of a RESET whose release is seen by sample `iRel`, `D_ok` (R87). -/
def resetSuccessLength (c : Config.Timing) (iRel : Nat) : Nat :=
  firstSampleTick c + c.tPoll.toNat * iRel + c.tRstguard.toNat

/-- The duration of a RESET that fails, `D_fail` (R87). -/
def resetFailureLength (c : Config.Timing) : Nat := firstSampleTick c + c.tPoll.toNat * c.nPoll.toNat

/-- The presence sample `p_i = line[t0 + T_POLL*i]` (R87), the line being `dev` there since nothing drives it (R43). -/
def presenceLevel (c : Config.Timing) (devs : List Bool) (i : Nat) : Bool :=
  devs.getD (firstSampleTick c + c.tPoll.toNat * i) true

/-- R87: `iLow` is the least sample that reads low and `iRel` the least one after it that reads high. -/
def PresenceSeen (c : Config.Timing) (devs : List Bool) (iLow iRel : Nat) : Prop :=
  iLow < iRel ∧ iRel < c.nPoll.toNat ∧
  (∀ i, i < iLow → presenceLevel c devs i = true) ∧ presenceLevel c devs iLow = false ∧
  (∀ i, iLow < i → i < iRel → presenceLevel c devs i = false) ∧ presenceLevel c devs iRel = true

end Sys2Proof.Machine
end

