-- ==== Sys2Proof/Certificates/Slice0/Obligations.lean ====
section
/-! DEFINITION. The statements about the OWTM block, one definition each; OBLIGATIONS.json lists them. -/

open Sys2Proof Sys2Proof.Machine

/-! ## Encoding -/

/-- Decoding the word of a well-formed command gives the command back, an alias as its core command (R60 to R62,
R112). -/
def Obligations.DecodeEncodeRoundTrip : Prop :=
  ∀ i : Instr, i.WellFormed → decode (encode i) = .ok i.core

/-- The other direction: a word that decodes is the word of what it decodes to, which is well-formed and no alias. -/
def Obligations.DecodedCommandEncodesBack : Prop :=
  ∀ (w : CmdWord) (i : Instr), decode w = .ok i → encode i = w ∧ i.WellFormed ∧ i.core = i

/-- R64: which words are illegal, what an illegal word does, and how many words are legal. What the pin `cmd_valid`
reads afterwards is the host's affair and left open (log 3). -/
def Obligations.IllegalCommandWords : Prop :=
  (∀ w : CmdWord, (∃ e, decode w = .error e) ↔
    (rsvField w ≠ 0#4 ∨
     opField w ∈ [0x0, 0x6, 0x7, 0xA, 0xB, 0xC, 0xD, 0xE, 0xF] ∨
     (opField w ∈ [1, 2, 4, 8] ∧ immField w ≠ 0#8) ∨
     (opField w = 3#4 ∧ (immField w).extractLsb' 1 7 ≠ 0#7))) ∧
  (∀ (s : State) (e : DecodeError), s.cmdValid = true → s.cmdReady = true → decode s.cmd = .error e →
    ∃ v, step s = .next { s with cmdValid := v, err := .illegal }) ∧
  ((Finset.range 65536).filter (fun n => (decodeTableWord 16 n).isSome = true)).card = 518

/-- Words written out from the opcode map of R62, one at least for each family, and words beside them that are none. -/
def Obligations.OpcodeMapWordsDecode : Prop :=
  decode 0x0100 = .ok .reset ∧ decode 0x0200 = .ok .rdbit ∧
  decode 0x0300 = .ok (.wrbit 0) ∧ decode 0x0301 = .ok (.wrbit 1) ∧
  decode 0x0400 = .ok .rdbyte ∧ decode 0x05CC = .ok (.wrbyte 0xCC) ∧
  decode 0x0800 = .ok .crcclr ∧ decode 0x0928 = .ok (.crcbyte 0x28) ∧
  decode 0x0000 = .error .unassignedOpcode ∧ decode 0x0101 = .error .operandNotZero ∧
  decode 0x0302 = .error .bitOperandTooWide ∧ decode 0x1100 = .error .reservedBits

/-- R112: `SENDCMD v` and `WRBYTE v` have the same word and the same effect, and no word decodes to `SENDCMD`. -/
def Obligations.SendcmdIsWrbyte : Prop :=
  (∀ v : Byte, encode (.sendcmd v) = encode (.wrbyte v) ∧ encode (.sendcmd v) = (0x05 : Byte) ++ v) ∧
  (∀ (v : Byte) (s : State), exec (.sendcmd v) s = exec (.wrbyte v) s) ∧
  (∀ (w : CmdWord) (v : Byte), decode w ≠ .ok (.sendcmd v))

/-- R67: each pseudo-instruction expands to commands with the words of the table. -/
def Obligations.PseudoInstructionsExpand : Prop :=
  (∀ v : Byte, (expand (.sendcmd v)).map encode = [(0x05 : Byte) ++ v]) ∧
  (expand .skiprom).map encode = [0x05CC] ∧
  (∀ code : RomCode, (expand (.matchrom code)).map encode = 0x0555 :: code.toList.map (fun b => (0x05 : Byte) ++ b)) ∧
  (expand .searchrom).map encode = [0x05F0] ∧
  (expand .convert).map encode = [0x0544] ∧
  (expand .rdscratch).map encode = [0x05BE] ∧
  (∀ bytes : List Byte, expand (.crc8 bytes) = .crcclr :: bytes.map .crcbyte ∧
    (expand (.crc8 bytes)).map encode = 0x0800 :: bytes.map (fun b => (0x09 : Byte) ++ b))

/-! ## Steps and ports -/

/-- When a command is presented to a ready block and its word decodes to `i`, the step is `exec i`. What the step adds
is the model's convention that the host drops `cmd_valid` at acceptance (log 3). -/
def Obligations.StepRunsDecodedCommand : Prop :=
  ∀ (s : State) (i : Instr), s.cmdValid = true → s.cmdReady = true → decode s.cmd = .ok i →
    step s = exec i { s with cmdValid := false }

/-- When no command is accepted, the step is the next event of the inbox (the model's account of the outside, log 1);
with `rst_n` released a `tick` event is the tick of R82. -/
def Obligations.StepDeliversNextEvent : Prop :=
  ∀ (s : State) (e : Event) (rest : List Event), ¬(s.cmdValid = true ∧ s.cmdReady = true) → s.inbox = e :: rest →
    step s = .next (deliver e { s with inbox := rest }) ∧
    (∀ dev, e = .tick dev → s.rstN = true → step s = .next (tick dev { s with inbox := rest }))

/-- As many steps as there are microseconds at the head of the inbox are those microseconds of the block. -/
def Obligations.StepsOverTicksAreTicks : Prop :=
  ∀ (devs : List Bool) (rest : List Event) (s : State), s.cmdValid = false → s.rstN = true →
    s.inbox = devs.map .tick ++ rest →
    Sys2Proof.core.run devs.length s = .next (ticks devs { s with inbox := rest })

/-- Nothing stops the machine: every step from every state, and every issue of every command, answers a next state. -/
def Obligations.EveryStepAnswersNext : Prop :=
  (∀ s : State, ∃ t, step s = .next t) ∧ (∀ (i : Instr) (s : State), ∃ t, exec i s = .next t)

/-- R45: `cmd_ready`; acceptance (an illegal word by R64); a command presented while `cmd_ready = 0` has no effect and
may be held, through any microsecond and status read, or withdrawn; once a command is accepted the port is ready again
only when it is not in the block any more. What `cmd_valid` reads after acceptance is left open (log 3), and so is what
the pins read through a hardware reset (log 7). -/
def Obligations.CommandPortHandshake : Prop :=
  (∀ s : State, s.cmdReady = true ↔ s.rstN = true ∧ s.busy = false) ∧
  (∀ (s : State) (i : Instr), s.cmdValid = true → s.cmdReady = true → decode s.cmd = .ok i →
    ∃ v, step s = exec i { s with cmdValid := v }) ∧
  (∀ (s : State) (e : DecodeError), s.cmdValid = true → s.cmdReady = true → decode s.cmd = .error e →
    ∃ v, step s = .next { s with cmdValid := v, err := .illegal }) ∧
  (∀ (s : State) (i : Instr), s.cmdReady = false → exec i s = .next s) ∧
  (∀ s : State, s.cmdReady = false → fetch s = .nothing) ∧
  (∀ (s : State) (e : Event), s.rstN = true → (∃ dev, e = .tick dev) ∨ (∃ a, e = .readStatus a) →
    (deliver e s).cmdValid = s.cmdValid ∧ (deliver e s).cmd = s.cmd) ∧
  (∀ (s : State) (w : CmdWord), s.ResetHeld →
    deliver (.present w) s = { s with cmdValid := true, cmd := w } ∧
    deliver .withdraw s = { s with cmdValid := false }) ∧
  (∀ (s t : State) (i : Instr), s.cmdReady = true → exec i s = .next t → t.cmdReady = !t.busy)

/-- R46: the status read port is combinational, free of side effects, and usable at any time. -/
def Obligations.StatusReadPort : Prop :=
  (∀ s : State, s.srRdata = s.sr s.srAddr ∧ s.busyOut = s.status.getLsbD 0) ∧
  (∀ (s : State) (a : BitVec 2), s.ResetHeld →
    deliver (.readStatus a) s = { s with srAddr := a } ∧ (deliver (.readStatus a) s).srRdata = s.sr a)

/-- R47 and R17: the status address map, `STATUS` field by field, with the codes of `ERR` (R14, R150). -/
def Obligations.StatusAddressMap : Prop :=
  ∀ s : State,
    ((s.sr 0).getLsbD 0 = s.busy ∧ (s.sr 0).getLsbD 1 = s.rstok ∧ (s.sr 0).extractLsb' 2 2 = s.err.code ∧
      (s.sr 0).extractLsb' 4 4 = 0) ∧
    s.sr 1 = s.rxdata ∧ s.sr 2 = s.crc ∧ s.sr 3 = 0 ∧
    (s.err = .ok → s.err.code = 0#2) ∧ (s.err = .noPresence → s.err.code = 1#2) ∧
    (s.err = .notArmed → s.err.code = 2#2) ∧ (s.err = .illegal → s.err.code = 3#2)

/-! ## Issuing commands -/

/-- R83: what accepting each timed command writes; everything else, `ERR`, `RXDATA` and `CRC` among it, stays. -/
def Obligations.TimedCommandsStart : Prop :=
  ∀ s : State, s.cmdReady = true →
    exec .reset s = .next { s with opc := 1#4, busy := true, rstok := false, poll := 0#6, seenLow := false,
                                   fsm := .rstLow, dqOe := true, tcnt := s.cfg.tRstl, entry := false } ∧
    (s.rstok = true →
      exec .rdbit s = .next { s with opc := 2#4, busy := true, bitcnt := 0#4, sh := 0#8,
                                     fsm := .rdLow, dqOe := true, tcnt := s.cfg.tRdlow, entry := false } ∧
      exec .rdbyte s = .next { s with opc := 4#4, busy := true, bitcnt := 0#4, sh := 0#8,
                                      fsm := .rdLow, dqOe := true, tcnt := s.cfg.tRdlow, entry := false } ∧
      (∀ b : Bool, exec (.wrbit ((BitVec.ofBool b).setWidth 8)) s =
        .next { s with opc := 3#4, busy := true, bitcnt := 0#4, sh := (BitVec.ofBool b).setWidth 8,
                       fsm := if b then .w1Low else .w0Low, dqOe := true,
                       tcnt := if b then s.cfg.tW1low else s.cfg.tW0low, entry := false }) ∧
      (∀ (v : Byte) (i : Instr), i = .wrbyte v ∨ i = .sendcmd v → exec i s =
        .next { s with opc := 5#4, busy := true, bitcnt := 0#4, sh := v,
                       fsm := if v.getLsbD 0 then .w1Low else .w0Low, dqOe := true,
                       tcnt := if v.getLsbD 0 then s.cfg.tW1low else s.cfg.tW0low, entry := false }))

/-- R154, R152: an unarmed bit or byte command is refused with `NOT_ARMED` and changes nothing else. -/
def Obligations.UnarmedCommandsRefused : Prop :=
  ∀ (s : State) (i : Instr), s.cmdReady = true → s.rstok = false → i.WellFormed →
    (i = .rdbit ∨ (∃ imm8, i = .wrbit imm8) ∨ i = .rdbyte ∨ (∃ v, i = .wrbyte v) ∨ (∃ v, i = .sendcmd v)) →
    exec i s = .next { s with err := .notArmed }

/-- R155, R89: legality is tested before the armed check; RESET and the CRC commands are never refused as unarmed. -/
def Obligations.LegalityTestedBeforeArmed : Prop :=
  (∀ (s : State) (e : DecodeError), s.cmdValid = true → s.cmdReady = true → s.rstok = false →
    decode s.cmd = .error e → step s = .next { s with cmdValid := false, err := .illegal }) ∧
  (∀ (s : State) (imm8 : Byte), s.cmdReady = true → imm8.extractLsb' 1 7 ≠ 0#7 →
    exec (.wrbit imm8) s = .next { s with err := .illegal }) ∧
  (∀ s : State, s.cmdReady = true → s.rstok = false →
    (∃ t, exec .reset s = .next t ∧ t.err = s.err ∧ t.busy = true) ∧
    (∃ t, exec .crcclr s = .next t ∧ t.err = .ok) ∧
    (∀ v, ∃ t, exec (.crcbyte v) s = .next t ∧ t.err = .ok))

/-! ## CRC -/

/-- R122: `CRCCLR`, and a word `0x08xx` with a nonzero operand. -/
def Obligations.CrcclrClearsCrc : Prop :=
  encode .crcclr = 0x0800 ∧
  (∀ s : State, s.cmdReady = true →
    exec .crcclr s = .next { s with crc := 0#8, err := .ok, busy := false }) ∧
  (∀ (s : State) (imm8 : Byte), s.cmdValid = true → s.cmdReady = true → s.cmd = (0x08 : Byte) ++ imm8 → imm8 ≠ 0#8 →
    ∃ v, step s = .next { s with cmdValid := v, err := .illegal })

/-- R123: `CRCBYTE`, its use for a whole checksum, its corner cases and its example. -/
def Obligations.CrcbyteShiftsOneByte : Prop :=
  (∀ v : Byte, encode (.crcbyte v) = (0x09 : Byte) ++ v ∧ decode ((0x09 : Byte) ++ v) = .ok (.crcbyte v)) ∧
  (∀ (s : State) (v : Byte), s.cmdReady = true →
    exec (.crcbyte v) s = .next { s with crc := crc8Step s.crc v, err := .ok, busy := false }) ∧
  (∀ (s : State) (bytes : List Byte), s.cmdReady = true →
    issueAll (.crcclr :: bytes.map .crcbyte) s = .next { s with crc := crc8 bytes, err := .ok }) ∧
  (∀ bytes : List Byte, issueAll (bytes.map .crcbyte) State.reset = .next { State.reset with crc := crc8 bytes }) ∧
  crc8Step 0 0 = 0 ∧ (∀ c : Byte, crc8Step c c = 0) ∧
  crc8Step 0x00 0x02 = 0xBC ∧ crc8Step 0xBC 0x1C = 0xAF

/-- R121: one byte is eight single-bit shifts, bit 0 of the byte first, each by the register equations of the rule. -/
def Obligations.CrcStepRegisterEquations : Prop :=
  (∀ c b : Byte, crc8Step c b =
    crcShift (crcShift (crcShift (crcShift (crcShift (crcShift (crcShift (crcShift c
      (b.getLsbD 0)) (b.getLsbD 1)) (b.getLsbD 2)) (b.getLsbD 3)) (b.getLsbD 4)) (b.getLsbD 5)) (b.getLsbD 6))
      (b.getLsbD 7)) ∧
  (∀ (c : Byte) (d : Bool),
    (crcShift c d = if (c.getLsbD 0 ^^ d) = true then (c >>> 1) ^^^ 0x8C else c >>> 1) ∧
    (crcShift c d).getLsbD 7 = (c.getLsbD 0 ^^ d) ∧ (crcShift c d).getLsbD 6 = c.getLsbD 7 ∧
    (crcShift c d).getLsbD 5 = c.getLsbD 6 ∧ (crcShift c d).getLsbD 4 = c.getLsbD 5 ∧
    (crcShift c d).getLsbD 3 = (c.getLsbD 4 ^^ (c.getLsbD 0 ^^ d)) ∧
    (crcShift c d).getLsbD 2 = (c.getLsbD 3 ^^ (c.getLsbD 0 ^^ d)) ∧
    (crcShift c d).getLsbD 1 = c.getLsbD 2 ∧ (crcShift c d).getLsbD 0 = c.getLsbD 1)

/-- R124: (a) purity, of the whole computation on the block, (b) incrementality, (c) the self-check, for the eight bytes
of a ROM code an equivalence, (d) all-zero sequences. -/
def Obligations.Crc8Properties : Prop :=
  (∀ (s₁ s₂ : State) (x : List Byte), s₁.cmdReady = true → s₂.cmdReady = true →
    ∃ t₁ t₂, issueAll (.crcclr :: x.map .crcbyte) s₁ = .next t₁ ∧
      issueAll (.crcclr :: x.map .crcbyte) s₂ = .next t₂ ∧ t₁.crc = t₂.crc ∧
      t₁ = { s₁ with crc := crc8 x, err := .ok }) ∧
  (∀ x y : List Byte, crc8 (x ++ y) = y.foldl crc8Step (crc8 x)) ∧
  (∀ x : List Byte, crc8 (x ++ [crc8 x]) = 0) ∧
  (∀ code : RomCode, crc8 (code.toList.take 7) = code[7] ↔ crc8 code.toList = 0) ∧
  (∀ n : Nat, crc8 (List.replicate n 0) = 0)

/-! ## The line and the clock -/

/-- R42: the line is `dev AND NOT dq_oe`: low when the block drives it or a device pulls it, high otherwise; with
neither it reads 1. -/
def Obligations.LineResolution : Prop :=
  (∀ dev dqOe : Bool, line dev dqOe = (dev && !dqOe)) ∧
  (∀ dev dqOe : Bool, line dev dqOe = false ↔ dqOe = true ∨ dev = false) ∧
  line true false = true

/-- R43: only the first tick of `RD_REC` and of `RST_POLL` looks at the line, and there the block does not drive, so
that the sample is `dev`. -/
def Obligations.SamplesOnlyOnEntryTicks : Prop :=
  (∀ (s : State) (d₁ d₂ : Bool), ¬(s.entry = true ∧ (s.fsm = .rdRec ∨ s.fsm = .rstPoll)) → tick d₁ s = tick d₂ s) ∧
  (∀ (s : State) (dev : Bool), s.Inv → s.entry = true →
    (s.fsm = .rdRec ∨ s.fsm = .rstPoll) ∧ s.dqOe = false ∧ line dev s.dqOe = dev)

/-- R80, R8: a phase lasts exactly its duration, its drive in force throughout; the tick that ends it advances. Stated
for every phase but `RST_POLL`, which a sample may turn into `RST_GUARD`. -/
def Obligations.PhaseLastsItsDuration : Prop :=
  ∀ (s : State) (p : Phase) (devs : List Bool), p ≠ .idle → p ≠ .rstPoll → 1 ≤ (p.duration s.cfg).toNat →
    (devs.length < (p.duration s.cfg).toNat →
      (ticks devs (enter p s)).fsm = p ∧ (ticks devs (enter p s)).dqOe = p.drive ∧
      (ticks devs (enter p s)).tcnt.toNat = (p.duration s.cfg).toNat - devs.length) ∧
    (devs.length = (p.duration s.cfg).toNat →
      ticks devs (enter p s) =
        advance { enter p s with tcnt := 0#9, entry := false,
                                 sh := if p = .rdRec then shiftIn (devs.getD 0 true) s.sh else s.sh })

/-! ## Reset and invariants -/

/-- R171: the state after hardware reset, and that the block does nothing until a command is accepted; the last clause
says so of every idle block, after any command as well (R82, R179). -/
def Obligations.StateAfterReset : Prop :=
  State.reset.status = 0x00 ∧ State.reset.rxdata = 0x00#8 ∧ State.reset.crc = 0x00#8 ∧ State.reset.fsm = .idle ∧
  State.reset.dqOe = false ∧ State.reset.tcnt = 0#9 ∧ State.reset.poll = 0#6 ∧ State.reset.bitcnt = 0#4 ∧
  State.reset.sh = 0 ∧ State.reset.opc = 0#4 ∧ State.reset.entry = false ∧ State.reset.seenLow = false ∧
  (∀ a : BitVec 2, State.reset.sr a = 0) ∧ (∀ devs : List Bool, ticks devs State.reset = State.reset) ∧
  (∀ (s : State) (devs : List Bool), s.fsm = .idle → ticks devs s = s)

/-- R170: assertion resets the block at once, from every state; while it lasts every event leaves the reset values and
no command is accepted. That pins and parameters stay is the model's account of them (log 7). -/
def Obligations.HardwareResetAtAnyTime : Prop :=
  (∀ s : State, deliver .rstAssert s =
    { State.reset with rstN := false, cmdValid := s.cmdValid, cmd := s.cmd, srAddr := s.srAddr, cfg := s.cfg,
                       inbox := s.inbox, draws := s.draws }) ∧
  (∀ (s : State) (e : Event), s.rstN = false → hardwareReset (deliver e s) = deliver e s ∧
    ((deliver e s).rstN = true ↔ e = .rstRelease)) ∧
  (∀ s : State, s.rstN = false → s.cmdReady = false ∧ step s = .next (environment s) ∧
    ∀ i : Instr, exec i s = .next s)

/-- Every step, from every state that meets the invariant, gives a state that meets it. -/
def Obligations.StepKeepsInvariant : Prop :=
  ∀ s t : State, s.Inv → step s = .next t → t.Inv

/-- The reset state meets the invariant. -/
def Obligations.ResetMeetsInvariant : Prop := State.reset.Inv

/-- R5, R172: the timing parameters are fixed at build time; no step writes them. -/
def Obligations.StepKeepsTimingParameters : Prop :=
  ∀ s t : State, step s = .next t → t.cfg = s.cfg

/-- The invariant gives R33 (a) to (d) and (f) as the rule states them. -/
def Obligations.InvariantGivesRuleR33 : Prop :=
  ∀ s : State, s.Inv →
    (s.busy = false ↔ s.fsm = .idle) ∧
    (s.fsm = .idle → s.dqOe = false ∧ s.entry = false) ∧
    (s.fsm ≠ .idle → 1 ≤ s.tcnt.toNat ∧ s.tcnt.toNat ≤ 500) ∧
    (s.dqOe = true ↔ s.fsm = .rstLow ∨ s.fsm = .rdLow ∨ s.fsm = .w1Low ∨ s.fsm = .w0Low) ∧
    (s.poll.toNat ≤ s.cfg.nPoll.toNat ∧ s.bitcnt.toNat ≤ 8)

/-- R13: `RSTOK` rises only when a RESET completes with `OK`, and falls only when a RESET is accepted or at hardware
reset. -/
def Obligations.RstokWriters : Prop :=
  ∀ s t : State, s.Inv → step s = .next t →
    (s.rstok = false → t.rstok = true → s.busy = true ∧ s.opc = 1#4 ∧ t.busy = false ∧ t.err = .ok) ∧
    (s.rstok = true → t.rstok = false →
      (s.cmdValid = true ∧ s.cmdReady = true ∧ decode s.cmd = .ok .reset) ∨ t.rstN = false)

/-- R15: `RXDATA` is written only on completion of RDBIT, with the sampled bit, and of RDBYTE, with the shift register
(and by hardware reset). -/
def Obligations.RxdataWriters : Prop :=
  ∀ s t : State, s.Inv → step s = .next t → t.rxdata ≠ s.rxdata →
    t.rstN = false ∨
    (s.busy = true ∧ t.busy = false ∧ t.err = .ok ∧
      ((s.opc = 2#4 ∧ t.rxdata = sampledBit t.sh ∧ (t.rxdata = 0x00#8 ∨ t.rxdata = 0x01#8)) ∨
       (s.opc = 4#4 ∧ t.rxdata = t.sh)))

/-- R16: `CRC` is written only by an accepted CRCCLR or CRCBYTE, which touch nothing else but `ERR` (and by hardware
reset). -/
def Obligations.CrcWriters : Prop :=
  ∀ s t : State, s.Inv → step s = .next t → t.crc ≠ s.crc →
    t.rstN = false ∨
    (s.cmdValid = true ∧ s.cmdReady = true ∧
      ((decode s.cmd = .ok .crcclr ∧ t = { s with cmdValid := false, crc := 0#8, err := .ok }) ∨
       (∃ v, decode s.cmd = .ok (.crcbyte v) ∧
         t = { s with cmdValid := false, crc := crc8Step s.crc v, err := .ok })))

/-- R14: `ERR` changes only when a command completes: inside issue, with the block never busy, or on the tick on which
`BUSY` falls (and at hardware reset). -/
def Obligations.ErrWriters : Prop :=
  ∀ s t : State, s.Inv → step s = .next t → t.err ≠ s.err →
    t.rstN = false ∨
    (s.cmdValid = true ∧ s.cmdReady = true ∧ t.busy = false) ∨
    (s.busy = true ∧ t.busy = false ∧ t.fsm = .idle ∧ t.dqOe = false)

/-- R53 (d), R91: while a timed command runs, the host's pins change nothing of the block, and a tick that does not
complete the command leaves every result register as it was. -/
def Obligations.RunningCommandUndisturbed : Prop :=
  (∀ (s : State) (w : CmdWord) (a : BitVec 2), s.busy = true → s.ResetHeld →
    deliver (.present w) s = { s with cmdValid := true, cmd := w } ∧
    deliver .withdraw s = { s with cmdValid := false } ∧
    deliver (.readStatus a) s = { s with srAddr := a } ∧
    ∀ i : Instr, exec i s = .next s) ∧
  (∀ (s : State) (dev : Bool), (tick dev s).busy = true →
    (tick dev s).err = s.err ∧ (tick dev s).rxdata = s.rxdata ∧ (tick dev s).crc = s.crc ∧
    (tick dev s).rstok = s.rstok)

/-! ## Whole commands -/

/-- R88: RDBIT from acceptance to completion, for every choice of the parameters: encoding, low ticks, the one sample,
duration, everything written; and its refusal when unarmed. -/
def Obligations.RdbitWholeRun : Prop :=
  encode .rdbit = 0x0200 ∧
  (∀ s : State, s.cmdReady = true → s.rstok = false → exec .rdbit s = .next { s with err := .notArmed }) ∧
  (∀ (s : State) (devs : List Bool), s.cmdReady = true → s.rstok = true → s.cfg.Legal →
    devs.length = readSlotLength s.cfg →
    ∃ t, exec .rdbit s = .next t ∧
      driveTrace devs t = readSlotTrace s.cfg ∧
      (∀ k, k < devs.length →
        (ticks (devs.take k) t).busy = true ∧ (ticks (devs.take k) t).rxdata = s.rxdata) ∧
      ticks devs t =
        { s with busy := false, err := .ok, fsm := .idle, tcnt := 0#9, entry := false, dqOe := false, opc := 2#4,
                 bitcnt := 0#4,
                 sh := shiftIn (devs.getD (s.cfg.tRdlow.toNat + s.cfg.tRdsample.toNat) true) 0,
                 rxdata := if devs.getD (s.cfg.tRdlow.toNat + s.cfg.tRdsample.toNat) true then 0x01#8 else 0x00#8 })

/-- R89: WRBIT from acceptance to completion, for every choice of the parameters; its two refusals. -/
def Obligations.WrbitWholeRun : Prop :=
  encode (.wrbit 0) = 0x0300 ∧ encode (.wrbit 1) = 0x0301 ∧
  (∀ (s : State) (b : Bool), s.cmdReady = true → s.rstok = false →
    exec (.wrbit ((BitVec.ofBool b).setWidth 8)) s = .next { s with err := .notArmed }) ∧
  (∀ (s : State) (imm8 : Byte), s.cmdReady = true → imm8.extractLsb' 1 7 ≠ 0#7 →
    exec (.wrbit imm8) s = .next { s with err := .illegal }) ∧
  (∀ (s : State) (b : Bool) (devs : List Bool), s.cmdReady = true → s.rstok = true → s.cfg.Legal →
    devs.length = writeSlotLength s.cfg b →
    ∃ t, exec (.wrbit ((BitVec.ofBool b).setWidth 8)) s = .next t ∧
      driveTrace devs t = writeSlotTrace s.cfg b ∧
      (∀ k, k < devs.length → (ticks (devs.take k) t).busy = true) ∧
      ticks devs t =
        { s with busy := false, err := .ok, fsm := .idle, tcnt := 0#9, entry := false, dqOe := false, opc := 3#4,
                 bitcnt := 0#4, sh := (BitVec.ofBool b).setWidth 8 })

/-- R110: RDBYTE from acceptance to completion, for every choice of the parameters: eight read slots, bit `i` of the
result sampled in slot `i`, `RXDATA` unchanged until the completing tick; its refusal when unarmed. -/
def Obligations.RdbyteWholeRun : Prop :=
  encode .rdbyte = 0x0400 ∧
  (∀ s : State, s.cmdReady = true → s.rstok = false → exec .rdbyte s = .next { s with err := .notArmed }) ∧
  (∀ (s : State) (devs : List Bool), s.cmdReady = true → s.rstok = true → s.cfg.Legal →
    devs.length = 8 * readSlotLength s.cfg →
    ∃ (t : State) (v : Byte), exec .rdbyte s = .next t ∧
      (∀ i, i < 8 → v.getLsbD i =
        devs.getD (i * readSlotLength s.cfg + s.cfg.tRdlow.toNat + s.cfg.tRdsample.toNat) true) ∧
      driveTrace devs t = (List.replicate 8 (readSlotTrace s.cfg)).flatten ∧
      (∀ k, k < devs.length →
        (ticks (devs.take k) t).busy = true ∧ (ticks (devs.take k) t).rxdata = s.rxdata) ∧
      ticks devs t =
        { s with busy := false, err := .ok, fsm := .idle, tcnt := 0#9, entry := false, dqOe := false, opc := 4#4,
                 bitcnt := 8#4, sh := v, rxdata := v })

/-- R111: WRBYTE from acceptance to completion, for every operand and every choice of the parameters: slot `i` sends
bit `i`; its refusal when unarmed. -/
def Obligations.WrbyteWholeRun : Prop :=
  (∀ v : Byte, encode (.wrbyte v) = (0x05 : Byte) ++ v ∧ decode ((0x05 : Byte) ++ v) = .ok (.wrbyte v)) ∧
  (∀ (s : State) (v : Byte), s.cmdReady = true → s.rstok = false →
    exec (.wrbyte v) s = .next { s with err := .notArmed }) ∧
  (∀ (s : State) (v : Byte) (devs : List Bool), s.cmdReady = true → s.rstok = true → s.cfg.Legal →
    devs.length = byteWriteLength s.cfg v →
    ∃ t, exec (.wrbyte v) s = .next t ∧
      driveTrace devs t = ((List.range 8).map (fun i => writeSlotTrace s.cfg (v.getLsbD i))).flatten ∧
      (∀ k, k < devs.length → (ticks (devs.take k) t).busy = true) ∧
      ticks devs t =
        { s with busy := false, err := .ok, fsm := .idle, tcnt := 0#9, entry := false, dqOe := false, opc := 5#4,
                 bitcnt := 8#4, sh := 0#8 })

/-- R87, success: the samples see the line pulled low and released within the budget; then RESET completes with `OK`
after the guard, armed, `t0 + T_POLL*i_rel + T_RSTGUARD` ticks after acceptance, whatever `RSTOK` was. -/
def Obligations.ResetSucceedsAfterPresence : Prop :=
  ∀ (s : State) (devs : List Bool) (iLow iRel : Nat), s.cmdReady = true → s.cfg.Legal →
    PresenceSeen s.cfg devs iLow iRel →
    devs.length = resetSuccessLength s.cfg iRel →
    ∃ t, exec .reset s = .next t ∧
      driveTrace devs t =
        List.replicate s.cfg.tRstl.toNat true ++ List.replicate (devs.length - s.cfg.tRstl.toNat) false ∧
      (∀ k, k < devs.length → (ticks (devs.take k) t).busy = true ∧ (ticks (devs.take k) t).rstok = false) ∧
      ticks devs t =
        { s with busy := false, rstok := true, err := .ok, fsm := .idle, tcnt := 0#9, entry := false, dqOe := false,
                 opc := 1#4, poll := BitVec.ofNat 6 iRel, seenLow := true }

/-- R151: RESET ends with `NO_PRESENCE` exactly when its `N_POLL` samples see no pull-down and release, and then
`T_RSTL + T_RSTREL + T_POLL*N_POLL` ticks after acceptance, never earlier, with the effects of the rule. -/
def Obligations.ResetFailsWithoutPresence : Prop :=
  ∀ (s : State) (devs : List Bool), s.cmdReady = true → s.cfg.Legal →
    devs.length = resetFailureLength s.cfg →
    ∃ t, exec .reset s = .next t ∧
      ((ticks devs t).err = .noPresence ↔ ¬∃ iLow iRel, PresenceSeen s.cfg devs iLow iRel) ∧
      ((¬∃ iLow iRel, PresenceSeen s.cfg devs iLow iRel) →
        driveTrace devs t =
          List.replicate s.cfg.tRstl.toNat true ++ List.replicate (devs.length - s.cfg.tRstl.toNat) false ∧
        (∀ k, k < devs.length → (ticks (devs.take k) t).busy = true ∧ (ticks (devs.take k) t).err = s.err) ∧
        ∃ seen, ticks devs t =
          { s with busy := false, rstok := false, err := .noPresence, fsm := .idle, tcnt := 0#9, entry := false,
                   dqOe := false, opc := 1#4, poll := s.cfg.nPoll, seenLow := seen })

/-- R113: on the line and in what the host sees, WRBYTE is the eight WRBITs of its bits with no tick between them. -/
def Obligations.WrbyteIsEightWrbits : Prop :=
  ∀ (s : State) (v : Byte) (devs : Nat → List Bool), s.cmdReady = true → s.rstok = true → s.cfg.Legal →
    (∀ i, i < 8 → (devs i).length = writeSlotLength s.cfg (v.getLsbD i)) →
    let bits := (List.range 8).map (fun i => (Instr.wrbit ((BitVec.ofBool (v.getLsbD i)).setWidth 8), devs i))
    let all := ((List.range 8).map devs).flatten
    runTrace (.wrbyte v) all s = runTraces bits s ∧
    (∀ a : BitVec 2, (runCommand (.wrbyte v) all s).sr a = (runCommands bits s).sr a)

/-- R113: on the line RDBYTE is eight RDBITs with no tick between them, and bit `i` of its result is the bit the
`i`-th of them leaves in `RXDATA`. -/
def Obligations.RdbyteIsEightRdbits : Prop :=
  ∀ (s : State) (devs : Nat → List Bool), s.cmdReady = true → s.rstok = true → s.cfg.Legal →
    (∀ i, i < 8 → (devs i).length = readSlotLength s.cfg) →
    let slots := (List.range 8).map (fun i => (Instr.rdbit, devs i))
    let all := ((List.range 8).map devs).flatten
    runTrace .rdbyte all s = runTraces slots s ∧
    (∀ i, i < 8 → (runCommand .rdbyte all s).rxdata.getLsbD i =
      (runCommands (slots.take (i + 1)) s).rxdata.getLsbD 0) ∧
    (runCommand .rdbyte all s).status = (runCommands slots s).status

/-- R181: the durations of the timed commands at the defaults of R5 and over its ranges, and that a write-1 pulls the
line low for less time than a write-0. The lengths are those of the statements about whole commands. -/
def Obligations.DurationsOverRanges : Prop :=
  (readSlotLength Config.Timing.default = 65 ∧ writeSlotLength Config.Timing.default true = 65 ∧
    writeSlotLength Config.Timing.default false = 65 ∧ 8 * readSlotLength Config.Timing.default = 520 ∧
    (∀ v : Byte, byteWriteLength Config.Timing.default v = 520) ∧
    firstSampleTick Config.Timing.default = 495 ∧
    (∀ iRel, resetSuccessLength Config.Timing.default iRel = 500 + 5 * iRel) ∧
    resetFailureLength Config.Timing.default = 745) ∧
  (∀ c : Config.Timing, c.Legal →
    (65 ≤ readSlotLength c ∧ readSlotLength c ≤ 70) ∧
    (∀ b, 65 ≤ writeSlotLength c b ∧ writeSlotLength c b ≤ 70) ∧
    (520 ≤ 8 * readSlotLength c ∧ 8 * readSlotLength c ≤ 560) ∧
    (∀ v : Byte, 520 ≤ byteWriteLength c v ∧ byteWriteLength c v ≤ 560) ∧
    (∀ iRel, 1 ≤ iRel → iRel < c.nPoll.toNat →
      505 ≤ resetSuccessLength c iRel ∧ resetSuccessLength c iRel ≤ 770) ∧
    745 ≤ resetFailureLength c ∧ resetFailureLength c ≤ 770 ∧
    c.tW1low.toNat < c.tW0low.toNat)

/-- R91: from every state that meets the invariant a command in progress is over after at most 770 ticks, whatever the
devices do. -/
def Obligations.TimedCommandsTerminate : Prop :=
  ∀ (s : State) (devs : List Bool), s.Inv → 770 ≤ devs.length → (ticks devs s).busy = false

/-- R86 and DRV's asymmetry property: the low time of a write-1 is strictly shorter than that of a write-0, on the line,
for every choice of the parameters and any devices. -/
def Obligations.WriteOneLowIsShorter : Prop :=
  ∀ (s : State) (d₁ d₀ : List Bool), s.cmdReady = true → s.rstok = true → s.cfg.Legal →
    d₁.length = writeSlotLength s.cfg true → d₀.length = writeSlotLength s.cfg false →
    (runTrace (.wrbit 1) d₁ s).count true < (runTrace (.wrbit 0) d₀ s).count true

/-! ## Host software -/

/-- R138: a search step that returns a code issues RESET, Search-ROM and 64 times RDBIT, RDBIT, WRBIT of the bit it puts
into the ROM buffer, 194 commands, and the code and `doneFlag` are what the rule says, whatever the bus answers. -/
def Obligations.SearchStepCommands : Prop :=
  ∀ (answer : List Instr → Reply) (past : List Instr) (S T : SearchState) (rom : RomCode),
    (searchNext S).result answer past = (T, .code rom) →
    (searchNext S).commands answer past = .reset :: .sendcmd 0xF0 :: (List.finRange 64).flatMap (fun k =>
      [.rdbit, .rdbit, .wrbit ((BitVec.ofBool T.rom[k.val]).setWidth 8)]) ∧
    ((searchNext S).commands answer past).length = 194 ∧
    rom = romOfBits T.rom.toList ∧ (T.doneFlag = true ↔ T.lastDiscrepancy = 0)

/-- R139, R137: on a bus without devices `first()` over the block reports that there is no code, without hanging, when
its RESET has failed. -/
def Obligations.EmptyBusGivesNoCode : Prop :=
  ∀ (S : SearchState) (s : State) (start : Nat), s.cmdReady = true → s.cfg.Legal →
    ∃ t : State, (searchFirst S).runOn (fun _ => true) (start, s) =
      (({ S with lastDiscrepancy := 0, doneFlag := false, started := true }, .noPresence),
        start + resetFailureLength s.cfg, t) ∧
      t.err = .noPresence ∧ t.cmdReady = true ∧ t.dqOe = false
end

