-- ==== Sys2Proof/Laws/State.lean ====
section
/-! SUPPORT. What each shared update writes and what it leaves, field by field, so that no proof unfolds a record
update. -/

namespace Sys2Proof.Machine

/-! `enter(p)` writes the phase, its drive, its duration and `entry` (R81), nothing else. -/

@[simp] theorem enter_busy (p : Phase) (s : State) : (enter p s).busy = s.busy := rfl
@[simp] theorem enter_rstok (p : Phase) (s : State) : (enter p s).rstok = s.rstok := rfl
@[simp] theorem enter_err (p : Phase) (s : State) : (enter p s).err = s.err := rfl
@[simp] theorem enter_rxdata (p : Phase) (s : State) : (enter p s).rxdata = s.rxdata := rfl
@[simp] theorem enter_crc (p : Phase) (s : State) : (enter p s).crc = s.crc := rfl
@[simp] theorem enter_fsm (p : Phase) (s : State) : (enter p s).fsm = p := rfl
@[simp] theorem enter_tcnt (p : Phase) (s : State) : (enter p s).tcnt = p.duration s.cfg := rfl
@[simp] theorem enter_entry (p : Phase) (s : State) : (enter p s).entry = p.samplesOnEntry := rfl
@[simp] theorem enter_poll (p : Phase) (s : State) : (enter p s).poll = s.poll := rfl
@[simp] theorem enter_seenLow (p : Phase) (s : State) : (enter p s).seenLow = s.seenLow := rfl
@[simp] theorem enter_bitcnt (p : Phase) (s : State) : (enter p s).bitcnt = s.bitcnt := rfl
@[simp] theorem enter_sh (p : Phase) (s : State) : (enter p s).sh = s.sh := rfl
@[simp] theorem enter_opc (p : Phase) (s : State) : (enter p s).opc = s.opc := rfl
@[simp] theorem enter_dqOe (p : Phase) (s : State) : (enter p s).dqOe = p.drive := rfl
@[simp] theorem enter_rstN (p : Phase) (s : State) : (enter p s).rstN = s.rstN := rfl
@[simp] theorem enter_cmdValid (p : Phase) (s : State) : (enter p s).cmdValid = s.cmdValid := rfl
@[simp] theorem enter_cmd (p : Phase) (s : State) : (enter p s).cmd = s.cmd := rfl
@[simp] theorem enter_srAddr (p : Phase) (s : State) : (enter p s).srAddr = s.srAddr := rfl
@[simp] theorem enter_cfg (p : Phase) (s : State) : (enter p s).cfg = s.cfg := rfl
@[simp] theorem enter_inbox (p : Phase) (s : State) : (enter p s).inbox = s.inbox := rfl
@[simp] theorem enter_draws (p : Phase) (s : State) : (enter p s).draws = s.draws := rfl

/-! `complete(e)` writes what R84 lists, nothing else. -/

@[simp] theorem complete_busy (e : Err) (s : State) : (complete e s).busy = false := rfl
@[simp] theorem complete_rstok (e : Err) (s : State) : (complete e s).rstok = rstokAfter e s := rfl
@[simp] theorem complete_err (e : Err) (s : State) : (complete e s).err = e := rfl
@[simp] theorem complete_rxdata (e : Err) (s : State) : (complete e s).rxdata = rxdataAfter s := rfl
@[simp] theorem complete_crc (e : Err) (s : State) : (complete e s).crc = s.crc := rfl
@[simp] theorem complete_fsm (e : Err) (s : State) : (complete e s).fsm = .idle := rfl
@[simp] theorem complete_tcnt (e : Err) (s : State) : (complete e s).tcnt = s.tcnt := rfl
@[simp] theorem complete_entry (e : Err) (s : State) : (complete e s).entry = false := rfl
@[simp] theorem complete_poll (e : Err) (s : State) : (complete e s).poll = s.poll := rfl
@[simp] theorem complete_seenLow (e : Err) (s : State) : (complete e s).seenLow = s.seenLow := rfl
@[simp] theorem complete_bitcnt (e : Err) (s : State) : (complete e s).bitcnt = s.bitcnt := rfl
@[simp] theorem complete_sh (e : Err) (s : State) : (complete e s).sh = s.sh := rfl
@[simp] theorem complete_opc (e : Err) (s : State) : (complete e s).opc = s.opc := rfl
@[simp] theorem complete_dqOe (e : Err) (s : State) : (complete e s).dqOe = false := rfl
@[simp] theorem complete_rstN (e : Err) (s : State) : (complete e s).rstN = s.rstN := rfl
@[simp] theorem complete_cmdValid (e : Err) (s : State) : (complete e s).cmdValid = s.cmdValid := rfl
@[simp] theorem complete_cmd (e : Err) (s : State) : (complete e s).cmd = s.cmd := rfl
@[simp] theorem complete_srAddr (e : Err) (s : State) : (complete e s).srAddr = s.srAddr := rfl
@[simp] theorem complete_cfg (e : Err) (s : State) : (complete e s).cfg = s.cfg := rfl
@[simp] theorem complete_inbox (e : Err) (s : State) : (complete e s).inbox = s.inbox := rfl
@[simp] theorem complete_draws (e : Err) (s : State) : (complete e s).draws = s.draws := rfl

/-! `raise` writes `ERR` and nothing else (R152). -/

@[simp] theorem raise_busy (e : Err) (s : State) : (raise e s).busy = s.busy := rfl
@[simp] theorem raise_rstok (e : Err) (s : State) : (raise e s).rstok = s.rstok := rfl
@[simp] theorem raise_err (e : Err) (s : State) : (raise e s).err = e := rfl
@[simp] theorem raise_rxdata (e : Err) (s : State) : (raise e s).rxdata = s.rxdata := rfl
@[simp] theorem raise_crc (e : Err) (s : State) : (raise e s).crc = s.crc := rfl
@[simp] theorem raise_fsm (e : Err) (s : State) : (raise e s).fsm = s.fsm := rfl
@[simp] theorem raise_tcnt (e : Err) (s : State) : (raise e s).tcnt = s.tcnt := rfl
@[simp] theorem raise_entry (e : Err) (s : State) : (raise e s).entry = s.entry := rfl
@[simp] theorem raise_poll (e : Err) (s : State) : (raise e s).poll = s.poll := rfl
@[simp] theorem raise_seenLow (e : Err) (s : State) : (raise e s).seenLow = s.seenLow := rfl
@[simp] theorem raise_bitcnt (e : Err) (s : State) : (raise e s).bitcnt = s.bitcnt := rfl
@[simp] theorem raise_sh (e : Err) (s : State) : (raise e s).sh = s.sh := rfl
@[simp] theorem raise_opc (e : Err) (s : State) : (raise e s).opc = s.opc := rfl
@[simp] theorem raise_dqOe (e : Err) (s : State) : (raise e s).dqOe = s.dqOe := rfl
@[simp] theorem raise_rstN (e : Err) (s : State) : (raise e s).rstN = s.rstN := rfl
@[simp] theorem raise_cmdValid (e : Err) (s : State) : (raise e s).cmdValid = s.cmdValid := rfl
@[simp] theorem raise_cmd (e : Err) (s : State) : (raise e s).cmd = s.cmd := rfl
@[simp] theorem raise_srAddr (e : Err) (s : State) : (raise e s).srAddr = s.srAddr := rfl
@[simp] theorem raise_cfg (e : Err) (s : State) : (raise e s).cfg = s.cfg := rfl
@[simp] theorem raise_inbox (e : Err) (s : State) : (raise e s).inbox = s.inbox := rfl
@[simp] theorem raise_draws (e : Err) (s : State) : (raise e s).draws = s.draws := rfl

/-! Hardware reset gives the block's own state its reset values and leaves pins, parameters and the model's fields (R170). -/

@[simp] theorem hardwareReset_busy (s : State) : (hardwareReset s).busy = false := rfl
@[simp] theorem hardwareReset_rstok (s : State) : (hardwareReset s).rstok = false := rfl
@[simp] theorem hardwareReset_err (s : State) : (hardwareReset s).err = .ok := rfl
@[simp] theorem hardwareReset_rxdata (s : State) : (hardwareReset s).rxdata = 0 := rfl
@[simp] theorem hardwareReset_crc (s : State) : (hardwareReset s).crc = 0 := rfl
@[simp] theorem hardwareReset_fsm (s : State) : (hardwareReset s).fsm = .idle := rfl
@[simp] theorem hardwareReset_tcnt (s : State) : (hardwareReset s).tcnt = 0#9 := rfl
@[simp] theorem hardwareReset_entry (s : State) : (hardwareReset s).entry = false := rfl
@[simp] theorem hardwareReset_poll (s : State) : (hardwareReset s).poll = 0#6 := rfl
@[simp] theorem hardwareReset_seenLow (s : State) : (hardwareReset s).seenLow = false := rfl
@[simp] theorem hardwareReset_bitcnt (s : State) : (hardwareReset s).bitcnt = 0#4 := rfl
@[simp] theorem hardwareReset_sh (s : State) : (hardwareReset s).sh = 0 := rfl
@[simp] theorem hardwareReset_opc (s : State) : (hardwareReset s).opc = 0#4 := rfl
@[simp] theorem hardwareReset_dqOe (s : State) : (hardwareReset s).dqOe = false := rfl
@[simp] theorem hardwareReset_rstN (s : State) : (hardwareReset s).rstN = s.rstN := rfl
@[simp] theorem hardwareReset_cmdValid (s : State) : (hardwareReset s).cmdValid = s.cmdValid := rfl
@[simp] theorem hardwareReset_cmd (s : State) : (hardwareReset s).cmd = s.cmd := rfl
@[simp] theorem hardwareReset_srAddr (s : State) : (hardwareReset s).srAddr = s.srAddr := rfl
@[simp] theorem hardwareReset_cfg (s : State) : (hardwareReset s).cfg = s.cfg := rfl
@[simp] theorem hardwareReset_inbox (s : State) : (hardwareReset s).inbox = s.inbox := rfl
@[simp] theorem hardwareReset_draws (s : State) : (hardwareReset s).draws = s.draws := rfl

end Sys2Proof.Machine
end

