-- ==== Sys2Proof/Laws/Ops.lean ====
section
/-! SUPPORT. One lemma per shared operation, saying everything it can do. -/

namespace Sys2Proof.Machine

theorem accept_ready {s : State} (effect : State → State) (h : s.cmdReady = true) :
    accept effect s = .next (effect s) := by simp [accept, h]

theorem accept_not_ready {s : State} (effect : State → State) (h : s.cmdReady = false) :
    accept effect s = .next s := by simp [accept, h]

/-- An issue step always answers a next state: the effect on a ready block, no change otherwise (R45). -/
theorem accept_cases (effect : State → State) (s : State) :
    (s.cmdReady = true ∧ accept effect s = .next (effect s)) ∨
    (s.cmdReady = false ∧ accept effect s = .next s) := by
  cases h : s.cmdReady
  · exact .inr ⟨rfl, accept_not_ready effect h⟩
  · exact .inl ⟨rfl, accept_ready effect h⟩

@[simp] theorem whenArmed_armed {s : State} (effect : State → State) (h : s.rstok = true) :
    whenArmed effect s = effect s := by simp [whenArmed, h]

@[simp] theorem whenArmed_unarmed {s : State} (effect : State → State) (h : s.rstok = false) :
    whenArmed effect s = raise .notArmed s := by simp [whenArmed, h]

/-- A slot starts in the low phase its opcode and the bit to send choose (R81). -/
theorem startSlot_cases (s : State) :
    ((s.opc = 2#4 ∨ s.opc = 4#4) ∧ startSlot s = enter .rdLow s) ∨
    (¬(s.opc = 2#4 ∨ s.opc = 4#4) ∧ lowBit s.sh = true ∧ startSlot s = enter .w1Low s) ∨
    (¬(s.opc = 2#4 ∨ s.opc = 4#4) ∧ lowBit s.sh = false ∧ startSlot s = enter .w0Low s) := by
  by_cases h : s.opc = 2#4 ∨ s.opc = 4#4
  · exact .inl ⟨h, if_pos h⟩
  · cases hb : lowBit s.sh
    · exact .inr (.inr ⟨h, rfl, by rw [startSlot, if_neg h, hb]; rfl⟩)
    · exact .inr (.inl ⟨h, rfl, by rw [startSlot, if_neg h, hb]; rfl⟩)

theorem startSlots_read {op : BitVec 4} (h : op = 2#4 ∨ op = 4#4) (sh0 : Byte) (s : State) :
    startSlots op sh0 s = enter .rdLow { s with opc := op, busy := true, bitcnt := 0#4, sh := sh0 } :=
  if_pos h

theorem startSlots_write_one {op : BitVec 4} (h : ¬(op = 2#4 ∨ op = 4#4)) {sh0 : Byte} (hb : lowBit sh0 = true)
    (s : State) :
    startSlots op sh0 s = enter .w1Low { s with opc := op, busy := true, bitcnt := 0#4, sh := sh0 } :=
  (if_neg h).trans (by simp only [hb]; rfl)

theorem startSlots_write_zero {op : BitVec 4} (h : ¬(op = 2#4 ∨ op = 4#4)) {sh0 : Byte} (hb : lowBit sh0 = false)
    (s : State) :
    startSlots op sh0 s = enter .w0Low { s with opc := op, busy := true, bitcnt := 0#4, sh := sh0 } :=
  (if_neg h).trans (by simp only [hb]; rfl)

@[simp] theorem hardwareReset_idem (s : State) : hardwareReset (hardwareReset s) = hardwareReset s := rfl

theorem holdReset_released {s : State} (h : s.rstN = true) : holdReset s = s := by simp [holdReset, h]

theorem holdReset_asserted {s : State} (h : s.rstN = false) : holdReset s = hardwareReset s := by
  simp [holdReset, h]

/-- The reset state is what hardware reset makes of itself (R32, R170). -/
theorem hardwareReset_reset : hardwareReset State.reset = State.reset := rfl

/-- The line is low exactly when the block drives it or a device pulls it (R42). -/
theorem line_eq_false_iff (dev dqOe : Bool) : line dev dqOe = false ↔ dqOe = true ∨ dev = false := by
  cases dev <;> cases dqOe <;> decide

/-- A released line shows what the devices do (R43). -/
@[simp] theorem line_released (dev : Bool) : line dev false = dev := by cases dev <;> rfl

/-- A sample enters at bit 7 and the rest moves one down (R28). -/
theorem shiftIn_bit (level : Bool) (v : Byte) {j : Nat} (hj : j < 8) :
    (shiftIn level v).getLsbD j = if j = 7 then level else v.getLsbD (j + 1) := by
  show BitVec.getLsbD (BitVec.ofBool level ++ v.extractLsb' 1 7 : BitVec (1 + 7)) j = _
  rw [BitVec.getLsbD_append, BitVec.getLsbD_extractLsb']
  by_cases h : j = 7
  · subst h; simp
  · have : j < 7 := by omega
    simp [this, h, Nat.add_comm]

/-- The end of a write slot moves every bit one down (R81). -/
theorem shiftOut_bit (v : Byte) (j : Nat) : (shiftOut v).getLsbD j = v.getLsbD (j + 1) := by
  simp [shiftOut, Nat.add_comm]

/-- No phase but a low phase drives the line (R80). -/
theorem drive_eq_true_iff (p : Phase) :
    p.drive = true ↔ p = .rstLow ∨ p = .rdLow ∨ p = .w1Low ∨ p = .w0Low := by cases p <;> decide

/-- A phase that samples on entry does not drive the line (R43). -/
theorem samplesOnEntry_released {p : Phase} (h : p.samplesOnEntry = true) : p.drive = false := by
  cases p <;> first | rfl | cases h

end Sys2Proof.Machine

/-- R5's constraint on every choice of the parameters, from DRV's asymmetry property. -/
theorem Sys2Proof.Laws.Timing.legal_asymmetry {c : Sys2Proof.Config.Timing} (h : c.Legal) :
    c.tW1low.toNat < c.tW0low.toNat := by
  obtain ⟨_, _, _, _, _, _, _, _, h1, _, h0, _⟩ := h
  omega

/-- Every duration a legal choice loads is between 1 and 500 (R5, R23). -/
theorem Sys2Proof.Laws.Timing.duration_bounds {c : Sys2Proof.Config.Timing} (h : c.Legal)
    {p : Sys2Proof.Machine.Phase} (hp : p ≠ .idle) :
    1 ≤ (p.duration c).toNat ∧ (p.duration c).toNat ≤ 500 := by
  simp only [Sys2Proof.Config.Timing.Legal, Sys2Proof.Config.inRange] at h
  cases p <;> simp [Sys2Proof.Machine.Phase.duration] at * <;> omega
end

