-- ==== Sys2Proof/Laws/Tick.lean ====
section
/-! SUPPORT. What a microsecond does, said once: the cases of each part of `tick`, and how a whole phase passes. -/

namespace Sys2Proof.Machine

@[simp] theorem tick_idle {s : State} (h : s.fsm = .idle) (dev : Bool) : tick dev s = s := by simp [tick, h]

theorem tick_busy {s : State} (h : s.fsm ≠ .idle) (dev : Bool) :
    tick dev s = countDown (sampleOnEntry (line dev s.dqOe) s) := by simp [tick, h]

theorem sampleOnEntry_none {s : State} (h : s.entry = false) (level : Bool) : sampleOnEntry level s = s := by
  simp [sampleOnEntry, h]

theorem sampleOnEntry_read {s : State} (h : s.entry = true) (hp : s.fsm = .rdRec) (level : Bool) :
    sampleOnEntry level s = { s with entry := false, sh := shiftIn level s.sh } := by
  simp [sampleOnEntry, h, hp]

theorem sampleOnEntry_poll {s : State} (h : s.entry = true) (hp : s.fsm = .rstPoll) (level : Bool) :
    sampleOnEntry level s = presenceSample level { s with entry := false } := by
  simp [sampleOnEntry, h, hp]

/-- The three outcomes of a presence-poll iteration's sample (R82). -/
theorem presenceSample_cases (level : Bool) (s : State) :
    (level = false ∧ presenceSample level s = { s with seenLow := true, poll := s.poll + 1#6 }) ∨
    (level = true ∧ s.seenLow = true ∧
      presenceSample level s = { s with fsm := .rstGuard, tcnt := s.cfg.tRstguard }) ∨
    (level = true ∧ s.seenLow = false ∧ presenceSample level s = { s with poll := s.poll + 1#6 }) := by
  cases level
  · exact .inl ⟨rfl, rfl⟩
  · cases h : s.seenLow
    · exact .inr (.inr ⟨rfl, rfl, by simp [presenceSample, h]⟩)
    · exact .inr (.inl ⟨rfl, rfl, by simp [presenceSample, h]⟩)

/-- The on-entry part of a tick either does nothing but clear `entry`, or takes one of the two samples (R82). -/
theorem sampleOnEntry_cases (level : Bool) (s : State) :
    (s.entry = false ∧ sampleOnEntry level s = s) ∨
    (s.entry = true ∧ s.fsm = .rdRec ∧
      sampleOnEntry level s = { s with entry := false, sh := shiftIn level s.sh }) ∨
    (s.entry = true ∧ s.fsm = .rstPoll ∧
      sampleOnEntry level s = presenceSample level { s with entry := false }) ∨
    (s.entry = true ∧ s.fsm.samplesOnEntry = false ∧ sampleOnEntry level s = { s with entry := false }) := by
  cases he : s.entry
  · exact .inl ⟨rfl, sampleOnEntry_none he level⟩
  · cases hp : s.fsm <;> simp [sampleOnEntry, he, hp, Phase.samplesOnEntry]

/-- A tick that leaves ticks in the phase only counts. -/
theorem countDown_counts {s : State} (h : s.tcnt - 1#9 ≠ 0#9) : countDown s = { s with tcnt := s.tcnt - 1#9 } :=
  if_neg h

/-- The tick that brings `tcnt` to 0 advances (R81). -/
theorem countDown_ends {s : State} (h : s.tcnt - 1#9 = 0#9) : countDown s = advance { s with tcnt := 0#9 } := by
  have : countDown s = advance { s with tcnt := s.tcnt - 1#9 } := if_pos h
  rw [this, h]

/-- The end of a slot completes the command or starts the next slot (R81). -/
theorem endOfSlot_cases (s : State) :
    ((s.opc = 2#4 ∨ s.opc = 3#4) ∧ endOfSlot s = complete .ok s) ∨
    (¬(s.opc = 2#4 ∨ s.opc = 3#4) ∧ ∃ t : State,
      t = { s with bitcnt := s.bitcnt + 1#4, sh := if s.opc = 5#4 then shiftOut s.sh else s.sh } ∧
      ((t.bitcnt = 8#4 ∧ endOfSlot s = complete .ok t) ∨ (t.bitcnt ≠ 8#4 ∧ endOfSlot s = startSlot t))) := by
  by_cases h : s.opc = 2#4 ∨ s.opc = 3#4
  · exact .inl ⟨h, if_pos h⟩
  · refine .inr ⟨h, _, rfl, ?_⟩
    by_cases h8 : s.bitcnt + 1#4 = 8#4
    · exact .inl ⟨h8, (if_neg h).trans (if_pos h8)⟩
    · exact .inr ⟨h8, (if_neg h).trans (if_neg h8)⟩

/-- Everything a phase change can do (R81). -/
theorem advance_cases (s : State) :
    (s.fsm = .idle ∧ advance s = s) ∨
    (s.fsm = .rstLow ∧ advance s = enter .rstWait s) ∨
    (s.fsm = .rstWait ∧ advance s = enter .rstPoll s) ∨
    (s.fsm = .rstPoll ∧ s.poll = s.cfg.nPoll ∧ advance s = complete .noPresence s) ∨
    (s.fsm = .rstPoll ∧ s.poll ≠ s.cfg.nPoll ∧ advance s = enter .rstPoll s) ∨
    (s.fsm = .rstGuard ∧ advance s = complete .ok s) ∨
    (s.fsm = .rdLow ∧ advance s = enter .rdWait s) ∨
    (s.fsm = .rdWait ∧ advance s = enter .rdRec s) ∨
    (s.fsm = .w1Low ∧ advance s = enter .w1Rec s) ∨
    (s.fsm = .w0Low ∧ advance s = enter .w0Rec s) ∨
    ((s.fsm = .rdRec ∨ s.fsm = .w1Rec ∨ s.fsm = .w0Rec) ∧ advance s = endOfSlot s) := by
  cases h : s.fsm <;> simp [advance, h]
  by_cases hp : s.poll = s.cfg.nPoll <;> simp [hp]

@[simp] theorem ticks_nil (s : State) : ticks [] s = s := rfl

@[simp] theorem ticks_cons (dev : Bool) (devs : List Bool) (s : State) :
    ticks (dev :: devs) s = ticks devs (tick dev s) := rfl

theorem ticks_append (d₁ d₂ : List Bool) (s : State) : ticks (d₁ ++ d₂) s = ticks d₂ (ticks d₁ s) := by
  simp [ticks]

theorem ticks_idle {s : State} (h : s.fsm = .idle) (devs : List Bool) : ticks devs s = s := by
  induction devs with
  | nil => rfl
  | cons d ds ih => rw [ticks_cons, tick_idle h, ih]

/-- A tick inside a phase, the sample behind it, only counts. -/
theorem tick_counts {s : State} (hp : s.fsm ≠ .idle) (he : s.entry = false) (h : 1 < s.tcnt.toNat) (dev : Bool) :
    tick dev s = { s with tcnt := s.tcnt - 1#9 } := by
  rw [tick_busy hp, sampleOnEntry_none he, countDown_counts]
  intro h0
  have := congrArg BitVec.toNat h0
  have := s.tcnt.isLt
  simp [BitVec.toNat_sub] at *
  omega

/-- The last tick of a phase advances. -/
theorem tick_ends {s : State} (hp : s.fsm ≠ .idle) (he : s.entry = false) (h : s.tcnt = 1#9) (dev : Bool) :
    tick dev s = advance { s with tcnt := 0#9 } := by
  rw [tick_busy hp, sampleOnEntry_none he, countDown_ends (by rw [h]; rfl)]

/-- Fewer ticks than the phase has left only count, whatever the devices do. -/
theorem ticks_within_phase (devs : List Bool) {s : State} (hp : s.fsm ≠ .idle) (he : s.entry = false)
    (h : devs.length < s.tcnt.toNat) : ticks devs s = { s with tcnt := s.tcnt - BitVec.ofNat 9 devs.length } := by
  induction devs generalizing s with
  | nil => simp
  | cons d ds ih =>
    simp only [List.length_cons] at h
    have hlt := s.tcnt.isLt
    have hone : (s.tcnt - 1#9).toNat = s.tcnt.toNat - 1 := by simp [BitVec.toNat_sub]; omega
    rw [ticks_cons, tick_counts hp he (by omega) d,
      ih (s := { s with tcnt := s.tcnt - 1#9 }) hp he (by show _ < (s.tcnt - 1#9).toNat; omega)]
    simp only [List.length_cons]
    congr 1
    apply BitVec.eq_of_toNat_eq
    simp [BitVec.toNat_sub]
    omega

/-- As many ticks as the phase has left end it. -/
theorem ticks_whole_phase (devs : List Bool) {s : State} (hp : s.fsm ≠ .idle) (he : s.entry = false)
    (hpos : 1 ≤ s.tcnt.toNat) (h : devs.length = s.tcnt.toNat) :
    ticks devs s = advance { s with tcnt := 0#9 } := by
  obtain ⟨init, last, rfl⟩ : ∃ init last, devs = init ++ [last] := by
    rcases List.eq_nil_or_concat devs with rfl | ⟨i, l, rfl⟩
    · simp at h; omega
    · exact ⟨i, l, by simp⟩
  simp only [List.length_append, List.length_cons, List.length_nil] at h
  have hlt := s.tcnt.isLt
  rw [ticks_append, ticks_within_phase init hp he (by omega), ticks_cons, ticks_nil, tick_ends (by exact hp) (by exact he)]
  apply BitVec.eq_of_toNat_eq
  simp [BitVec.toNat_sub]
  omega

end Sys2Proof.Machine
end

