-- ==== Sys2Proof/Laws/HostProgram.lean ====
section
/-! SUPPORT. How programs of the host compose, and what waiting for the block comes to. -/

namespace Sys2Proof.Machine

variable {α β : Type}

@[simp] theorem HostProgram.result_done (answer : List Instr → Reply) (r : α) (past : List Instr) :
    (HostProgram.done r).result answer past = r := rfl

@[simp] theorem HostProgram.result_issue (answer : List Instr → Reply) (c : Instr) (next : Reply → HostProgram α)
    (past : List Instr) :
    (HostProgram.issue c next).result answer past = (next (answer (c :: past))).result answer (c :: past) := rfl

@[simp] theorem HostProgram.commands_done (answer : List Instr → Reply) (r : α) (past : List Instr) :
    (HostProgram.done r).commands answer past = [] := rfl

@[simp] theorem HostProgram.commands_issue (answer : List Instr → Reply) (c : Instr) (next : Reply → HostProgram α)
    (past : List Instr) :
    (HostProgram.issue c next).commands answer past =
      c :: (next (answer (c :: past))).commands answer (c :: past) := rfl

/-- The commands of one program after another, and so what has been issued when the second starts. -/
theorem HostProgram.result_bind (answer : List Instr → Reply) (rest : α → HostProgram β) (p : HostProgram α)
    (past : List Instr) :
    (p.bind rest).result answer past =
      (rest (p.result answer past)).result answer ((p.commands answer past).reverse ++ past) := by
  induction p generalizing past with
  | done r => rfl
  | issue c next ih => simp [bind, ih]

theorem HostProgram.commands_bind (answer : List Instr → Reply) (rest : α → HostProgram β) (p : HostProgram α)
    (past : List Instr) :
    (p.bind rest).commands answer past =
      p.commands answer past ++
        (rest (p.result answer past)).commands answer ((p.commands answer past).reverse ++ past) := by
  induction p generalizing past with
  | done r => rfl
  | issue c next ih => simp [bind, ih]

@[simp] theorem HostProgram.result_map (answer : List Instr → Reply) (f : α → β) (p : HostProgram α)
    (past : List Instr) : (p.map f).result answer past = f (p.result answer past) := by
  rw [map, result_bind, result_done]

@[simp] theorem HostProgram.commands_map (answer : List Instr → Reply) (f : α → β) (p : HostProgram α)
    (past : List Instr) : (p.map f).commands answer past = p.commands answer past := by
  rw [map, commands_bind, commands_done, List.append_nil]

theorem commands_issueThen (answer : List Instr → Reply) (cs : List Instr) (p : HostProgram α) (past : List Instr) :
    (issueThen cs p).commands answer past = cs ++ p.commands answer (cs.reverse ++ past) := by
  induction cs generalizing past with
  | nil => rfl
  | cons c cs ih => simpa [issueThen] using ih (c :: past)

theorem result_issueThen (answer : List Instr → Reply) (cs : List Instr) (p : HostProgram α) (past : List Instr) :
    (issueThen cs p).result answer past = p.result answer (cs.reverse ++ past) := by
  induction cs generalizing past with
  | nil => rfl
  | cons c cs ih => simpa [issueThen] using ih (c :: past)

theorem ticks_range_succ (env : Nat → Bool) (start n : Nat) (s : State) :
    ticks ((List.range (n + 1)).map (fun i => env (start + i))) s =
      ticks ((List.range n).map (fun i => env (start + 1 + i))) (tick (env start) s) := by
  have h : (fun i => env (start + i)) ∘ Nat.succ = fun i => env (start + 1 + i) := by
    funext i
    simp only [Function.comp_apply, Nat.succ_eq_add_one]
    congr 1
    omega
  simp [List.range_succ_eq_map, h, ticks]

/-- A block that is not busy is not waited for. -/
@[simp] theorem awaitReady_of_not_busy (env : Nat → Bool) (limit start : Nat) {s : State} (h : s.busy = false) :
    awaitReady env limit (start, s) = (start, s) := by
  cases limit <;> simp [awaitReady, h]

/-- Waiting lasts exactly the microseconds after which the block is first not busy. -/
theorem awaitReady_eq (env : Nat → Bool) {n limit start : Nat} {s : State} (hn : n ≤ limit)
    (hbusy : ∀ k, k < n → (ticks ((List.range k).map (fun i => env (start + i))) s).busy = true)
    (hready : (ticks ((List.range n).map (fun i => env (start + i))) s).busy = false) :
    awaitReady env limit (start, s) = (start + n, ticks ((List.range n).map (fun i => env (start + i))) s) := by
  induction n generalizing limit start s with
  | zero => exact awaitReady_of_not_busy env limit start hready
  | succ n ih =>
    obtain ⟨limit, rfl⟩ := Nat.exists_eq_succ_of_ne_zero (show limit ≠ 0 by omega)
    have hb : s.busy = true := hbusy 0 (by omega)
    rw [awaitReady, if_pos hb, ticks_range_succ, show start + (n + 1) = start + 1 + n by omega]
    exact ih (by omega) (fun k hk => by rw [← ticks_range_succ]; exact hbusy (k + 1) (by omega))
      (by rw [← ticks_range_succ]; exact hready)

/-- A command over a ready block: it is issued at once, and its reply is read when the block is ready again. -/
theorem HostProgram.runOn_issue (env : Nat → Bool) (c : Instr) (next : Reply → HostProgram α) (now : Nat) {s : State}
    (h : s.busy = false) :
    (HostProgram.issue c next).runOn env (now, s) =
      (next (awaitReady env longestCommand (now, acceptedState c s)).2.reply).runOn env
        (awaitReady env longestCommand (now, acceptedState c s)) := by
  simp only [runOn, awaitReady_of_not_busy env longestCommand now h]

end Sys2Proof.Machine
end

