-- ==== Sys2Proof/Laws/PerInstr.lean ====
section
/-! SUPPORT. Families of statements about every command as syntax, one lemma per constructor. -/

/-- The word of a command has `rsv = 0`, its opcode in bits 11:8 and its operand byte in bits 7:0 (R60, R61). -/
def Sys2Proof.Laws.EncodedFields.Statement (i : Sys2Proof.Instr) : Prop :=
  Sys2Proof.rsvField (Sys2Proof.encode i) = 0 ∧ Sys2Proof.opField (Sys2Proof.encode i) = i.opcode ∧
  Sys2Proof.immField (Sys2Proof.encode i) = i.operand

namespace Sys2Proof.Laws.EncodedFields

/-- The three fields of R60 do not overlap. -/
theorem fields_of_append (op : BitVec 4) (imm8 : Byte) :
    rsvField (0#4 ++ op ++ imm8) = 0 ∧ opField (0#4 ++ op ++ imm8) = op ∧
    immField (0#4 ++ op ++ imm8) = imm8 := by
  refine ⟨?_, ?_, ?_⟩ <;> apply BitVec.eq_of_getLsbD_eq <;> intro k hk <;>
    simp +arith only [rsvField, opField, immField, BitVec.getLsbD_append, BitVec.getLsbD_extractLsb', hk,
      decide_true, Bool.true_and]
  · have : ¬(12 + k < 8) := by omega
    have : ¬(12 + k - 8 < 4) := by omega
    simp [*]
  · have : k ≤ 3 := by omega
    simp [hk, this]
  · have : 0 + k < 8 := by omega
    simp [hk]

theorem reset : Statement .reset := fields_of_append _ _
theorem rdbit : Statement .rdbit := fields_of_append _ _
theorem wrbit (imm8 : Byte) : Statement (.wrbit imm8) := fields_of_append _ _
theorem rdbyte : Statement .rdbyte := fields_of_append _ _
theorem wrbyte (v : Byte) : Statement (.wrbyte v) := fields_of_append _ _
theorem sendcmd (v : Byte) : Statement (.sendcmd v) := fields_of_append _ _
theorem crcclr : Statement .crcclr := fields_of_append _ _
theorem crcbyte (v : Byte) : Statement (.crcbyte v) := fields_of_append _ _

end Sys2Proof.Laws.EncodedFields
end

