-- ==== Sys2Proof/Laws/Runs.lean ====
section
/-! SUPPORT. How whole phases and whole slots pass: the state they leave, the line they make, and that the block stays
busy inside them. -/

namespace Sys2Proof.Machine

theorem driveTrace_append (d₁ d₂ : List Bool) (s : State) :
    driveTrace (d₁ ++ d₂) s = driveTrace d₁ s ++ driveTrace d₂ (ticks d₁ s) := by
  induction d₁ generalizing s with
  | nil => rfl
  | cons d ds ih => simp [driveTrace, ih]

/-- The line does not change its drive inside a phase (R44). -/
theorem driveTrace_within_phase (devs : List Bool) {s : State} (hp : s.fsm ≠ .idle) (he : s.entry = false)
    (h : devs.length ≤ s.tcnt.toNat) : driveTrace devs s = List.replicate devs.length s.dqOe := by
  induction devs generalizing s with
  | nil => rfl
  | cons d ds ih =>
    rw [driveTrace, List.length_cons, List.replicate_succ]
    congr 1
    cases ds with
    | nil => rfl
    | cons d' ds =>
      have hlt := s.tcnt.isLt
      simp only [List.length_cons] at h
      rw [tick_counts hp he (by omega)]
      have hone : (s.tcnt - 1#9).toNat = s.tcnt.toNat - 1 := by simp [BitVec.toNat_sub]; omega
      exact ih (s := { s with tcnt := s.tcnt - 1#9 }) hp he
        (by show _ ≤ (s.tcnt - 1#9).toNat; rw [hone]; simp only [List.length_cons]; omega)

/-- The first tick of `RD_REC` takes its sample and then counts like any other (R82). -/
theorem tick_read_entry {s : State} (hp : s.fsm = .rdRec) (he : s.entry = true) (dev : Bool) :
    tick dev s = tick dev { s with entry := false, sh := shiftIn (line dev s.dqOe) s.sh } := by
  rw [tick_busy (by rw [hp]; decide), sampleOnEntry_read he hp, tick_busy (by show s.fsm ≠ _; rw [hp]; decide),
    sampleOnEntry_none rfl]

/-- What a block that runs `devs` from `s` shows until its last tick: busy, with the result registers of `s`. -/
def RunsQuietly (devs : List Bool) (s : State) : Prop :=
  ∀ k, k < devs.length →
    (ticks (devs.take k) s).busy = s.busy ∧ (ticks (devs.take k) s).rxdata = s.rxdata ∧
    (ticks (devs.take k) s).err = s.err ∧ (ticks (devs.take k) s).rstok = s.rstok

theorem runsQuietly_phase (devs : List Bool) {s : State} (hp : s.fsm ≠ .idle) (he : s.entry = false)
    (h : devs.length ≤ s.tcnt.toNat) : RunsQuietly devs s := by
  intro k hk
  have : (devs.take k).length < s.tcnt.toNat := by simp only [List.length_take]; omega
  rw [ticks_within_phase _ hp he this]
  exact ⟨rfl, rfl, rfl, rfl⟩

theorem runsQuietly_append {d₁ d₂ : List Bool} {s : State} (h₁ : RunsQuietly d₁ s)
    (hs : (ticks d₁ s).busy = s.busy ∧ (ticks d₁ s).rxdata = s.rxdata ∧ (ticks d₁ s).err = s.err ∧
      (ticks d₁ s).rstok = s.rstok) (h₂ : RunsQuietly d₂ (ticks d₁ s)) : RunsQuietly (d₁ ++ d₂) s := by
  intro k hk
  by_cases hlt : k < d₁.length
  · rw [List.take_append_of_le_length (by omega)]
    exact h₁ k hlt
  · rw [List.take_append, List.take_of_length_le (by omega), ticks_append]
    simp only [List.length_append] at hk
    obtain ⟨a, b, c, d⟩ := h₂ (k - d₁.length) (by omega)
    exact ⟨a.trans hs.1, b.trans hs.2.1, c.trans hs.2.2.1, d.trans hs.2.2.2⟩

/-- A phase that takes no sample, from its first tick to the phase change. -/
theorem enter_run {p : Phase} (hp : p ≠ .idle) (hs : p.samplesOnEntry = false) (s : State) (devs : List Bool)
    (hpos : 1 ≤ (p.duration s.cfg).toNat) (h : devs.length = (p.duration s.cfg).toNat) :
    ticks devs (enter p s) = advance { enter p s with tcnt := 0#9 } ∧
    driveTrace devs (enter p s) = List.replicate devs.length p.drive ∧ RunsQuietly devs (enter p s) :=
  ⟨ticks_whole_phase devs hp hs hpos h, driveTrace_within_phase devs hp hs h.le, runsQuietly_phase devs hp hs h.le⟩

/-- The recovery phase of a read slot, the sample on its first tick. -/
theorem enter_read_run (s : State) (d : Bool) (devs : List Bool)
    (h : (d :: devs).length = s.cfg.tRdrec.toNat) :
    ticks (d :: devs) (enter .rdRec s) =
      advance { enter .rdRec s with tcnt := 0#9, entry := false, sh := shiftIn d s.sh } ∧
    driveTrace (d :: devs) (enter .rdRec s) = List.replicate (d :: devs).length false ∧
    RunsQuietly (d :: devs) (enter .rdRec s) := by
  have e : ∀ ds : List Bool, ticks (d :: ds) (enter .rdRec s) =
      ticks (d :: ds) { enter .rdRec s with entry := false, sh := shiftIn d s.sh } := by
    intro ds
    simp only [ticks_cons]
    rw [tick_read_entry rfl rfl d]
    simp [enter, Phase.drive]
  have hp : ({ enter .rdRec s with entry := false, sh := shiftIn d s.sh } : State).fsm ≠ .idle := by
    show Phase.rdRec ≠ .idle; decide
  have ht : ({ enter .rdRec s with entry := false, sh := shiftIn d s.sh } : State).tcnt.toNat = (d :: devs).length := h.symm
  refine ⟨?_, ?_, ?_⟩
  · rw [e]
    exact ticks_whole_phase _ hp rfl (by rw [ht]; simp) ht.symm
  · have h2 := driveTrace_within_phase (d :: devs) hp rfl ht.symm.le
    rw [driveTrace] at h2 ⊢
    rw [tick_read_entry (s := enter .rdRec s) rfl rfl d]
    simpa [enter, Phase.drive] using h2
  · intro k hk
    cases k with
    | zero => exact ⟨rfl, rfl, rfl, rfl⟩
    | succ k =>
      rw [List.take_succ_cons, e]
      have := runsQuietly_phase (d :: devs) hp rfl ht.symm.le (k + 1) hk
      rwa [List.take_succ_cons] at this

/-- A run cut at two places. -/
theorem exists_split3 {α : Type} (l : List α) (a b c : Nat) (h : l.length = a + b + c) :
    ∃ x y z, l = x ++ y ++ z ∧ x.length = a ∧ y.length = b ∧ z.length = c := by
  refine ⟨l.take a, (l.drop a).take b, (l.drop a).drop b, ?_, ?_, ?_, ?_⟩
  · simp [List.append_assoc]
  all_goals simp; try omega

/-- A whole read slot (R85). -/
theorem readSlot_run (s : State) (devs : List Bool) (hc : s.cfg.Legal) (h : devs.length = readSlotLength s.cfg) :
    ticks devs (enter .rdLow s) =
      endOfSlot { enter .rdRec s with
        tcnt := 0#9
        entry := false
        sh := shiftIn (devs.getD (s.cfg.tRdlow.toNat + s.cfg.tRdsample.toNat) true) s.sh } ∧
    driveTrace devs (enter .rdLow s) = readSlotTrace s.cfg ∧ RunsQuietly devs (enter .rdLow s) := by
  have hl := Sys2Proof.Laws.Timing.duration_bounds hc (p := .rdLow) (by decide)
  have hw := Sys2Proof.Laws.Timing.duration_bounds hc (p := .rdWait) (by decide)
  have hr := Sys2Proof.Laws.Timing.duration_bounds hc (p := .rdRec) (by decide)
  obtain ⟨x, y, z, rfl, hx, hy, hz⟩ := exists_split3 devs _ _ _ h
  obtain ⟨d, z, rfl⟩ : ∃ d z', z = d :: z' := by
    cases z with
    | nil => simp [Phase.duration] at hz hr; omega
    | cons d z => exact ⟨d, z, rfl⟩
  obtain ⟨t1, r1, q1⟩ := enter_run (p := .rdLow) (by decide) rfl s x hl.1 hx
  obtain ⟨t2, r2, q2⟩ := enter_run (p := .rdWait) (by decide) rfl s y hw.1 hy
  obtain ⟨t3, r3, q3⟩ := enter_read_run s d z hz
  have a1 : ticks x (enter .rdLow s) = enter .rdWait s := t1
  have a2 : ticks y (enter .rdWait s) = enter .rdRec s := t2
  refine ⟨?_, ?_, ?_⟩
  · rw [ticks_append, ticks_append, a1, a2, t3]
    have : ((x ++ y ++ d :: z).getD (s.cfg.tRdlow.toNat + s.cfg.tRdsample.toNat) true) = d := by
      rw [List.getD_append_right]; simp [hx, hy]
      simp [hx, hy]
    rw [this]; rfl
  · rw [driveTrace_append, driveTrace_append, ticks_append, a1, a2, r1, r2, r3, hx, hy, hz, readSlotTrace, List.append_assoc, ← List.replicate_append_replicate]
    rfl
  · refine runsQuietly_append (runsQuietly_append q1 ?_ ?_) ?_ ?_
    · rw [a1]; exact ⟨rfl, rfl, rfl, rfl⟩
    · rw [a1]; exact q2
    · rw [ticks_append, a1, a2]; exact ⟨rfl, rfl, rfl, rfl⟩
    · rw [ticks_append, a1, a2]; exact q3

/-- A run cut at one place. -/
theorem exists_split2 {α : Type} (l : List α) (a b : Nat) (h : l.length = a + b) :
    ∃ x y, l = x ++ y ∧ x.length = a ∧ y.length = b := by
  refine ⟨l.take a, l.drop a, ?_, ?_, ?_⟩ <;> simp; omega
  omega

/-- The low phase of the write slot of a bit (R81). -/
def writeLow (b : Bool) : Phase := if b then .w1Low else .w0Low

/-- The recovery phase of the write slot of a bit (R81). -/
def writeRec (b : Bool) : Phase := if b then .w1Rec else .w0Rec

/-- A whole write slot (R86). -/
theorem writeSlot_run (s : State) (b : Bool) (devs : List Bool) (hc : s.cfg.Legal)
    (h : devs.length = writeSlotLength s.cfg b) :
    ticks devs (enter (writeLow b) s) = endOfSlot { enter (writeRec b) s with tcnt := 0#9 } ∧
    driveTrace devs (enter (writeLow b) s) = writeSlotTrace s.cfg b ∧ RunsQuietly devs (enter (writeLow b) s) := by
  have hl := Sys2Proof.Laws.Timing.duration_bounds hc (p := writeLow b) (by cases b <;> decide)
  have hw := Sys2Proof.Laws.Timing.duration_bounds hc (p := writeRec b) (by cases b <;> decide)
  have h' : devs.length = ((writeLow b).duration s.cfg).toNat + ((writeRec b).duration s.cfg).toNat := by
    rw [h]; cases b <;> rfl
  obtain ⟨x, y, rfl, hx, hy⟩ := exists_split2 devs _ _ h'
  obtain ⟨t1, r1, q1⟩ := enter_run (p := writeLow b) (by cases b <;> decide) (by cases b <;> rfl) s x hl.1 hx
  obtain ⟨t2, r2, q2⟩ := enter_run (p := writeRec b) (by cases b <;> decide) (by cases b <;> rfl) s y hw.1 hy
  have a1 : ticks x (enter (writeLow b) s) = enter (writeRec b) s := by rw [t1]; cases b <;> rfl
  refine ⟨?_, ?_, ?_⟩
  · rw [ticks_append, a1, t2]; cases b <;> rfl
  · rw [driveTrace_append, a1, r1, r2, hx, hy]; cases b <;> rfl
  · refine runsQuietly_append q1 ?_ ?_
    · rw [a1]; exact ⟨rfl, rfl, rfl, rfl⟩
    · rw [a1]; exact q2

end Sys2Proof.Machine
end

