-- ==== Sys2Proof/Laws/Step.lean ====
section
/-! SUPPORT. What a step, an issue step and an event can do, said once. -/

namespace Sys2Proof.Machine

/-- The state after a legal command is issued on a ready block (R63). -/
def issued (i : Instr) (s : State) : State :=
  match i with
  | .reset => startReset s
  | .rdbit => whenArmed (startSlots 2#4 0#8) s
  | .wrbit imm8 => if isBitOperand imm8 then whenArmed (startSlots 3#4 imm8) s else raise .illegal s
  | .rdbyte => whenArmed (startSlots 4#4 0#8) s
  | .wrbyte v => whenArmed (startSlots 5#4 v) s
  | .sendcmd v => whenArmed (startSlots 5#4 v) s
  | .crcclr => { s with crc := 0#8, err := .ok }
  | .crcbyte v => { s with crc := crc8Step s.crc v, err := .ok }

/-- Every command answers a next state: its effect on a ready block, no change otherwise. -/
theorem exec_eq (i : Instr) (s : State) : exec i s = .next (if s.cmdReady then issued i s else s) := by
  cases i <;> rfl

theorem exec_ready {s : State} (h : s.cmdReady = true) (i : Instr) : exec i s = .next (issued i s) := by
  simp [exec_eq, h]

theorem exec_not_ready {s : State} (h : s.cmdReady = false) (i : Instr) : exec i s = .next s := by
  simp [exec_eq, h]

theorem fetch_legal {s : State} {i : Instr} (hv : s.cmdValid = true) (hr : s.cmdReady = true)
    (hd : decode s.cmd = .ok i) : fetch s = .command i { s with cmdValid := false } := by
  simp [fetch, hv, hr, hd]

theorem fetch_illegal {s : State} {e : DecodeError} (hv : s.cmdValid = true) (hr : s.cmdReady = true)
    (hd : decode s.cmd = .error e) : fetch s = .illegal (raise .illegal { s with cmdValid := false }) := by
  simp [fetch, hv, hr, hd]

theorem fetch_nothing {s : State} (h : ¬(s.cmdValid = true ∧ s.cmdReady = true)) : fetch s = .nothing := by
  simp [fetch, h]

/-- The three kinds of step: a legal command is issued, an illegal word is refused, the outside acts. -/
theorem step_cases (s : State) :
    (∃ i, s.cmdValid = true ∧ s.cmdReady = true ∧ decode s.cmd = .ok i ∧
      step s = .next (issued i { s with cmdValid := false })) ∨
    (∃ e, s.cmdValid = true ∧ s.cmdReady = true ∧ decode s.cmd = .error e ∧
      step s = .next (raise .illegal { s with cmdValid := false })) ∨
    (¬(s.cmdValid = true ∧ s.cmdReady = true) ∧ step s = .next (environment s)) := by
  by_cases h : s.cmdValid = true ∧ s.cmdReady = true
  · cases hd : decode s.cmd with
    | ok i => exact .inl ⟨i, h.1, h.2, rfl, by
        rw [step, fetch_legal h.1 h.2 hd]
        exact exec_ready (by simpa [State.cmdReady] using h.2) i⟩
    | error e => exact .inr (.inl ⟨e, h.1, h.2, rfl, by rw [step, fetch_illegal h.1 h.2 hd]⟩)
  · exact .inr (.inr ⟨h, by rw [step, fetch_nothing h]⟩)

/-- With an event in the inbox, that is the next event. -/
theorem environment_cons {s : State} {e : Event} {rest : List Event} (h : s.inbox = e :: rest) :
    environment s = deliver e { s with inbox := rest } := by simp [environment, nextEvent, h]

/-- With an empty inbox the next event is free (log 2). -/
theorem environment_nil {s : State} (h : s.inbox = []) :
    environment s = deliver (Config.freeEvent s.draws) { s with draws := s.draws + 1 } := by
  simp [environment, nextEvent, h]

/-- With `rst_n` released, an event that does not assert it acts on the state as it is. -/
theorem deliver_released {s : State} (hr : s.rstN = true) {e : Event} (he : (applyEvent e s).rstN = true) :
    deliver e s = applyEvent e s := by
  rw [deliver, holdReset_released hr, holdReset_released he]

/-- `placeCommand` leaves a ready block with the word at its port. -/
theorem placeCommand_ready (nbits w : Nat) (s : State) :
    (placeCommand nbits w s).cmdReady = true ∧ (placeCommand nbits w s).cmdValid = true ∧
    (placeCommand nbits w s).cmd = wordOfTableBits nbits w := by
  refine ⟨?_, rfl, rfl⟩
  show (makeReady s).cmdReady = true
  unfold makeReady
  split
  · assumption
  · rfl

/-- A step from a state with a legal word placed at the port runs exactly that command, from every state. -/
theorem step_withFetchWord (s : State) {nbits w : Nat} {i : Instr} (h : decodeTableWord nbits w = some i) :
    step (s.withFetchWord nbits w) = exec i { s.withFetchWord nbits w with cmdValid := false } := by
  obtain ⟨hr, hv, hc⟩ := placeCommand_ready nbits w s
  have hd : decode (placeCommand nbits w s).cmd = .ok i := by
    rw [hc]
    unfold decodeTableWord at h
    split at h <;> simp_all
  rw [State.withFetchWord, step, fetch_legal hv hr hd]

end Sys2Proof.Machine
end

