-- ==== Sys2Proof/Tests/Slice0.lean ====
section
/-! SUPPORT. Tests. Every expected value comes from the encodings of `30_encoding.md` R62, the vectors V<n> of
`95_test_vectors.md` or an example in a rule. The theorems named `witness_<statement>` show, for each statement with
hypotheses, a state and operands that meet all of them together. -/

namespace Sys2Proof.Tests

open Sys2Proof Sys2Proof.Machine

/-- "hardware reset, then a successful RESET" as far as the host sees it: armed, `STATUS = 0x02`. -/
def armed : State := { State.reset with rstok := true }

/-- A state with a word presented at the command port. -/
def presented (w : CmdWord) (s : State) : State := { s with cmdValid := true, cmd := w }

/-- A state with one event at the head of the inbox. -/
def facing (e : Event) (s : State) : State := { s with inbox := [e] }

/-- The state one step on. -/
def after (s : State) : State :=
  match step s with
  | .next t => t
  | .fault _ => s
  | .refused _ => s

/-! ## Well-formedness -/

theorem test_wf_refuses_wide_bit_operand : ¬(Instr.wrbit 0x02).WellFormed := by decide
theorem test_wf_refuses_high_bit_operand : ¬(Instr.wrbit 0x80).WellFormed := by decide
theorem test_wf_accepts_bit_operands : (Instr.wrbit 0).WellFormed ∧ (Instr.wrbit 1).WellFormed := by decide

/-! ## Decoding: the words of R62, written out bit by bit -/

theorem test_decode_reset : decode 0b0000000100000000 = .ok .reset := by decide
theorem test_decode_rdbit : decode 0b0000001000000000 = .ok .rdbit := by decide
theorem test_decode_wrbit_0 : decode 0b0000001100000000 = .ok (.wrbit 0) := by decide
theorem test_decode_wrbit_1 : decode 0b0000001100000001 = .ok (.wrbit 1) := by decide
theorem test_decode_rdbyte : decode 0b0000010000000000 = .ok .rdbyte := by decide
theorem test_decode_wrbyte : decode 0b0000010111001100 = .ok (.wrbyte 0xCC) := by decide
/-- `SENDCMD 0xCC` is the word `0x05CC` of `WRBYTE 0xCC` (R67, R112). -/
theorem test_sendcmd_word : encode (.sendcmd 0xCC) = 0x05CC ∧ decode 0x05CC = .ok (.wrbyte 0xCC) := by decide
theorem test_decode_crcclr : decode 0b0000100000000000 = .ok .crcclr := by decide
theorem test_decode_crcbyte : decode 0b0000100100101000 = .ok (.crcbyte 0x28) := by decide
/-- V42, V43, V44, V45, V47: one word for each of the four cases of R64. -/
theorem test_decode_rejects :
    decode 0x0000 = .error .unassignedOpcode ∧ decode 0x0101 = .error .operandNotZero ∧
    decode 0x0302 = .error .bitOperandTooWide ∧ decode 0x1100 = .error .reservedBits ∧
    decode 0x0801 = .error .operandNotZero := by decide
/-- V46. -/
theorem test_decode_unassigned :
    [0x0A00, 0x0600, 0x0700, 0x0F00].map decode = List.replicate 4 (.error .unassignedOpcode) := by decide
theorem test_table_word : decodeTableWord 16 0x0928 = some (.crcbyte 0x28) ∧ decodeTableWord 16 0 = none := by decide

/-! ## Issuing commands -/

/-- V10 to V17, first step: `RESET` runs with `STATUS = 0x01`, the line driven low. -/
theorem test_reset_starts :
    (after (presented 0x0100 armed)).status = 0x01 ∧ (after (presented 0x0100 armed)).dqOe = true ∧
    (after (presented 0x0100 armed)).tcnt = 480 := by decide
/-- V40. -/
theorem test_rdbit_unarmed :
    (after (presented 0x0200 State.reset)).status = 0x08 ∧ (after (presented 0x0200 State.reset)).dqOe = false := by
  decide
theorem test_rdbit_starts :
    (after (presented 0x0200 armed)).status = 0x03 ∧ (after (presented 0x0200 armed)).fsm = .rdLow := by decide
/-- V22, V23: a write-1 starts with 5 low ticks, a write-0 with 60. -/
theorem test_wrbit_low_ticks :
    (after (presented 0x0301 armed)).tcnt = 5 ∧ (after (presented 0x0300 armed)).tcnt = 60 := by decide
/-- V44: `ILLEGAL`, not `NOT_ARMED`. -/
theorem test_wrbit_illegal_first : (after (presented 0x0302 State.reset)).status = 0x0C := by decide
theorem test_rdbyte_starts :
    (after (presented 0x0400 armed)).fsm = .rdLow ∧ (after (presented 0x0400 armed)).opc = 4 := by decide
/-- V41: unarmed after a failed RESET. -/
theorem test_wrbyte_unarmed : (after (presented 0x05CC { State.reset with err := .noPresence })).status = 0x08 := by
  decide
/-- V28, V49: `0xCC` sends a 0 first; `STATUS = 0x03` while running. -/
theorem test_wrbyte_starts :
    (after (presented 0x05CC armed)).fsm = .w0Low ∧ (after (presented 0x0500 armed)).status = 0x03 := by decide
theorem test_sendcmd_starts : exec (.sendcmd 0xCD) armed = .next (enter .w1Low { armed with opc := 5, busy := true, sh := 0xCD }) :=
  rfl
/-- R122's example. -/
theorem test_crcclr_example :
    (after (presented 0x0800 { State.reset with crc := 0xA2, err := .illegal })).crc = 0x00 ∧
    (after (presented 0x0800 { State.reset with crc := 0xA2, err := .illegal })).status = 0x00 := by decide
/-- V48: from `STATUS = 0x08`, after CRCCLR. -/
theorem test_crcbyte_example :
    (after (presented 0x0902 State.reset)).crc = 0xBC ∧
    (after (presented 0x0902 { State.reset with err := .notArmed })).status = 0x00 := by decide
/-- V43: no reset pulse, still armed. -/
theorem test_illegal_changes_err_only :
    after (presented 0x0101 armed) = { armed with cmd := 0x0101, err := .illegal } := by decide
/-- V42, V45: `ILLEGAL`, still armed. -/
theorem test_illegal_status :
    (after (presented 0x0000 armed)).status = 0x0E ∧ (after (presented 0x1100 armed)).status = 0x0E := by decide

/-! ## CRC vectors -/

/-- V34. -/
theorem test_crc_single_bytes : [0x00, 0x01, 0x80, 0xFF, 0x28].map (crc8Step 0) = [0x00, 0x5E, 0x8C, 0x35, 0xE1] := by
  decide
/-- V31, V33. -/
theorem test_crc_rom_code :
    crc8 [0x02, 0x1C, 0xB8, 0x01, 0x00, 0x00, 0x00] = 0xA2 ∧
    crc8 [0x02, 0x1C, 0xB8, 0x01, 0x00, 0x00, 0x00, 0xA2] = 0x00 := by decide +kernel
/-- V32. -/
theorem test_crc_check_value : crc8 [0x31, 0x32, 0x33, 0x34, 0x35, 0x36, 0x37, 0x38, 0x39] = 0xA1 := by decide +kernel

/-! ## Ticks -/

/-- The last tick of a read slot's wait enters `RD_REC` with a sample due. -/
theorem test_tick_enters_recovery :
    (tick false { armed with busy := true, fsm := .rdWait, opc := 2, tcnt := 1 }).fsm = .rdRec ∧
    (tick false { armed with busy := true, fsm := .rdWait, opc := 2, tcnt := 1 }).entry = true := by decide
/-- R82: the sample goes into bit 7 and the rest moves down. -/
theorem test_tick_samples_into_bit_7 :
    (tick true { armed with busy := true, fsm := .rdRec, opc := 4, tcnt := 50, entry := true, sh := 0x80 }).sh = 0xC0 :=
  by decide
/-- V24: RDBIT clears bits 7:1 of `RXDATA`. -/
theorem test_tick_completes_rdbit :
    (tick false { armed with busy := true, fsm := .rdRec, opc := 2, tcnt := 1, sh := 0x80, rxdata := 0xF0 }).rxdata = 0x01 :=
  by decide
/-- V17: a pull-down first seen by the last sample leaves no budget for the release. -/
theorem test_tick_budget_used_up :
    (tick true { State.reset with busy := true, fsm := .rstPoll, opc := 1, tcnt := 1, poll := 50, seenLow := true }).status =
      0x04 := by decide
/-- V15: a release seen by the last sample is a success: the guard begins. -/
theorem test_tick_release_starts_guard :
    (tick true { State.reset with
      busy := true, fsm := .rstPoll, opc := 1, tcnt := 5, entry := true, poll := 49, seenLow := true }).fsm = .rstGuard :=
  by decide
/-- R170: hardware reset in mid-command releases the line at once. -/
theorem test_hardware_reset_releases :
    (after (facing .rstAssert (enter .rstLow { armed with busy := true, opc := 1 }))).dqOe = false ∧
    (after (facing .rstAssert (enter .rstLow { armed with busy := true, opc := 1 }))).cmdReady = false := by decide
/-- R45: a command presented while busy waits at the port. -/
theorem test_command_waits :
    (after (facing (.tick true) (presented 0x0800 (enter .rstLow { armed with busy := true, opc := 1 })))).cmdValid = true :=
  by decide
/-- `withFetchWord` puts the word where the next step takes it. -/
theorem test_withFetchWord : step (State.reset.withFetchWord 16 0x0902) = exec (.crcbyte 0x02) { State.reset with cmd := 0x0902 } :=
  rfl

/-! ## Host software (outside the block) -/

/-- V4, V5. -/
theorem test_temperature :
    (temperatureInteger 0x91 0x01, temperatureFraction 0x91) = (25, 625) ∧
    (temperatureInteger 0x5E 0xFF, temperatureFraction 0x5E) = (-10, 8750) := by decide
/-- R138, `90_conflicts.md` C3: P2, pass 3, position 9 follows the previous path. -/
theorem test_search_choice :
    searchChoice 10 9 true false false = some true ∧ searchChoice 10 10 false false false = some true ∧
    searchChoice 9 10 true false false = some false ∧ searchChoice 0 5 true true true = none := by decide

/-- R5, D24: the defaults and ranges of the host software's parameters and of `CLK_PER_US`. -/
theorem test_host_parameters :
    (Config.HostLimits.default none).maxDevices = 10 ∧ (Config.HostLimits.default none).Legal ∧
    (Config.HostLimits.default (some 1)).Legal ∧ ¬(Config.HostLimits.default (some 0)).Legal ∧
    1 ≤ (Config.clkPerUs : Nat) :=
  ⟨by decide, by decide, by decide, by decide, Config.clkPerUs.pos⟩
/-- The three ROM codes of program P2. -/
def romA : RomCode := #v[0x28, 0x01, 0x00, 0x00, 0x00, 0x00, 0x00, 0x29]
/-- P2, B. -/
def romB : RomCode := #v[0x28, 0x03, 0x00, 0x00, 0x00, 0x00, 0x00, 0x47]
/-- P2, C. -/
def romC : RomCode := #v[0x28, 0x02, 0x00, 0x00, 0x00, 0x00, 0x00, 0x70]
/-- P2's enumeration, with the cap 10 of R5. -/
def searchP2 : Enumeration :=
  (enumerate (Config.HostLimits.default none) SearchState.new).result (searchAnswer ([romA, romB, romC].map romBits)) []
/-- P2: the codes in the order C, A, B, ending with `doneFlag = true`. -/
theorem test_search_P2 :
    searchP2.codes = [romC, romA, romB] ∧ searchP2.ending = .allFound ∧ searchP2.state.doneFlag = true := by
  decide +kernel
/-- P2, pass 1: `marker` 9, and R138's 194 commands. -/
theorem test_search_pass1 :
    ((searchFirst SearchState.new).result (searchAnswer ([romA, romB, romC].map romBits)) []).1.lastDiscrepancy = 9 ∧
    ((searchFirst SearchState.new).commands (searchAnswer ([romA, romB, romC].map romBits)) []).length = 194 := by
  decide +kernel
/-- V3, on the block: an empty bus ends the enumeration with no code after 745 ticks. -/
theorem test_search_empty_bus :
    ((enumerate (Config.HostLimits.default none) SearchState.new).runOn (fun _ => true) (0, State.reset)).1 =
      { codes := [], state := { SearchState.new with started := true }, ending := .noPresence } ∧
    ((enumerate (Config.HostLimits.default none) SearchState.new).runOn (fun _ => true) (0, State.reset)).2.1 = 745 := by
  decide +kernel
/-- R136: the three states. -/
theorem test_search_phases :
    SearchState.new.phase = .notStarted ∧ { SearchState.new with started := true }.phase = .searching ∧
    searchP2.state.phase = .exhausted := by decide +kernel
/-- R134: a cap of 2 on a bus that always reads 0, and the two bytes of P1. -/
theorem test_convert_and_read :
    (convertAndRead (Config.HostLimits.default (some 2)) 9 .skip).result
      (fun _ => { err := .ok, rxdata := 0x00, crc := 0x00 }) [] = some (.error .conversionTimeout) ∧
    (convertAndRead (Config.HostLimits.default none) 9 .skip).commands
      (fun _ => { err := .ok, rxdata := 0x91, crc := 0x00 }) [] =
      [.reset, .sendcmd 0xCC, .sendcmd 0x44, .rdbyte, .reset, .sendcmd 0xCC, .sendcmd 0xBE, .rdbyte, .rdbyte] := by
  decide +kernel
/-- P4, on the block's CRC register. -/
theorem test_crc_on_block :
    ((crcOnBlock [0x02, 0x1C, 0xB8, 0x01, 0x00, 0x00, 0x00]).runOn (fun _ => true) (0, State.reset)).1 = 0xA2 := by
  decide +kernel

/-! ## Witnesses -/

/-- A running RDBIT one tick before its completion. -/
def rdbitEnding : State :=
  { armed with busy := true, fsm := .rdRec, opc := 2, tcnt := 1, sh := 0x80, inbox := [.tick true] }

/-- R45, log 20: a program started one tick before an RDBIT completes holds its CRCCLR for that tick. -/
theorem test_program_waits_for_ready :
    ((crcOnBlock []).runOn (fun _ => true) (0, rdbitEnding)).2.1 = 1 ∧
    ((crcOnBlock []).runOn (fun _ => true) (0, { rdbitEnding with crc := 0xA2 })).1 = 0x00 := by decide +kernel

/-- A running RESET one tick before its completion with success. -/
def resetEnding : State :=
  { State.reset with busy := true, fsm := .rstGuard, opc := 1, tcnt := 1, seenLow := true, inbox := [.tick true] }

/-- A read slot on its sampling tick. -/
def sampling : State := enter .rdRec { armed with busy := true, opc := 4 }

theorem inv_reset : State.reset.Inv := ⟨by decide, by decide, by decide, by decide, by decide, by decide⟩
theorem inv_rdbitEnding : rdbitEnding.Inv := ⟨by decide, by decide, by decide, by decide, by decide, by decide⟩
theorem inv_resetEnding : resetEnding.Inv := ⟨by decide, by decide, by decide, by decide, by decide, by decide⟩
theorem inv_sampling : sampling.Inv := ⟨by decide, by decide, by decide, by decide, by decide, by decide⟩
theorem inv_presented : (presented 0x0902 State.reset).Inv :=
  ⟨by decide, by decide, by decide, by decide, by decide, by decide⟩
theorem inv_armed_presented : (presented 0x0100 armed).Inv :=
  ⟨by decide, by decide, by decide, by decide, by decide, by decide⟩

theorem witness_DecodeEncodeRoundTrip : (Instr.wrbit 1).WellFormed := by decide
theorem witness_DecodedCommandEncodesBack : decode 0x0301 = .ok (.wrbit 1) := by decide
theorem witness_IllegalCommandWords :
    (presented 0x0302 armed).cmdValid = true ∧ (presented 0x0302 armed).cmdReady = true ∧
    decode (presented 0x0302 armed).cmd = .error .bitOperandTooWide := by decide
theorem witness_StepRunsDecodedCommand :
    (presented 0x0301 armed).cmdValid = true ∧ (presented 0x0301 armed).cmdReady = true ∧
    decode (presented 0x0301 armed).cmd = .ok (.wrbit 1) := by decide
theorem witness_StepDeliversNextEvent :
    ¬((facing (.tick true) armed).cmdValid = true ∧ (facing (.tick true) armed).cmdReady = true) ∧
    (facing (.tick true) armed).inbox = [.tick true] ∧ (facing (.tick true) armed).rstN = true := by decide
theorem witness_StepsOverTicksAreTicks :
    rdbitEnding.cmdValid = false ∧ rdbitEnding.rstN = true ∧ rdbitEnding.inbox = [true].map .tick ++ [] := by decide
theorem witness_CommandPortHandshake_legal :
    (presented 0x0100 armed).cmdValid = true ∧ (presented 0x0100 armed).cmdReady = true ∧
    decode (presented 0x0100 armed).cmd = .ok .reset := by decide
theorem witness_CommandPortHandshake_illegal :
    (presented 0xFFFF armed).cmdValid = true ∧ (presented 0xFFFF armed).cmdReady = true ∧
    decode (presented 0xFFFF armed).cmd = .error .reservedBits := by decide
theorem witness_CommandPortHandshake_busy :
    rdbitEnding.cmdReady = false ∧ rdbitEnding.rstN = true ∧ rdbitEnding.ResetHeld ∧
    (∃ dev, Event.tick true = .tick dev) ∧ (∃ a, Event.readStatus 1 = .readStatus a) :=
  ⟨by decide, by decide, by decide, ⟨true, rfl⟩, ⟨1, rfl⟩⟩
theorem witness_CommandPortHandshake_oneCommand :
    armed.cmdReady = true ∧ exec .reset armed = .next (startReset armed) ∧ (startReset armed).busy = true :=
  ⟨by decide, rfl, rfl⟩
theorem witness_StatusReadPort : rdbitEnding.ResetHeld ∧ (hardwareReset { armed with rstN := false }).ResetHeld := by decide
theorem witness_TimedCommandsStart : armed.cmdReady = true ∧ armed.rstok = true := by decide
theorem witness_UnarmedCommandsRefused :
    State.reset.cmdReady = true ∧ State.reset.rstok = false ∧ (Instr.wrbit 1).WellFormed := by decide
theorem witness_LegalityTestedBeforeArmed :
    (presented 0x0302 State.reset).cmdValid = true ∧ (presented 0x0302 State.reset).cmdReady = true ∧
    (presented 0x0302 State.reset).rstok = false ∧
    decode (presented 0x0302 State.reset).cmd = .error .bitOperandTooWide ∧
    (0x02 : Byte).extractLsb' 1 7 ≠ 0 := by decide
theorem witness_CrcclrClearsCrc :
    (presented 0x0801 State.reset).cmdValid = true ∧ (presented 0x0801 State.reset).cmdReady = true ∧
    (presented 0x0801 State.reset).cmd = (0x08 : Byte) ++ (0x01 : Byte) ∧ (0x01 : Byte) ≠ 0 := by decide
theorem witness_CrcbyteShiftsOneByte : State.reset.cmdReady = true := by decide
theorem witness_Crc8Properties : State.reset.cmdReady = true ∧ armed.cmdReady = true := by decide
theorem witness_StateAfterReset : ({ armed with rxdata := 0xA5, opc := 4, bitcnt := 8 } : State).fsm = .idle := rfl
theorem witness_SamplesOnlyOnEntryTicks :
    ¬(rdbitEnding.entry = true ∧ (rdbitEnding.fsm = .rdRec ∨ rdbitEnding.fsm = .rstPoll)) ∧ sampling.entry = true := by
  decide
/-- The samples of `witness_SamplesOnlyOnEntryTicks` come from a state that meets the invariant. -/
theorem witness_SamplesOnlyOnEntryTicks_inv : sampling.Inv := inv_sampling
theorem witness_PhaseLastsItsDuration :
    Phase.rdRec ≠ .idle ∧ Phase.rdRec ≠ .rstPoll ∧ 1 ≤ (Phase.rdRec.duration armed.cfg).toNat ∧
    (List.replicate 49 true).length < (Phase.rdRec.duration armed.cfg).toNat ∧
    (List.replicate 50 true).length = (Phase.rdRec.duration armed.cfg).toNat := by decide
theorem witness_HardwareResetAtAnyTime : ({ rdbitEnding with rstN := false } : State).rstN = false := rfl
theorem witness_StepKeepsInvariant :
    rdbitEnding.Inv ∧ step rdbitEnding = .next (tick true { rdbitEnding with inbox := [] }) := ⟨inv_rdbitEnding, rfl⟩
theorem witness_StepKeepsTimingParameters : step rdbitEnding = .next (tick true { rdbitEnding with inbox := [] }) := rfl
theorem witness_InvariantGivesRuleR33 : rdbitEnding.Inv ∧ rdbitEnding.fsm ≠ .idle := ⟨inv_rdbitEnding, by decide⟩
theorem witness_RstokWriters_rise :
    resetEnding.Inv ∧ step resetEnding = .next (tick true { resetEnding with inbox := [] }) ∧
    resetEnding.rstok = false ∧ (tick true { resetEnding with inbox := [] }).rstok = true :=
  ⟨inv_resetEnding, rfl, by decide, by decide⟩
theorem witness_RstokWriters_fall :
    (presented 0x0100 armed).Inv ∧ step (presented 0x0100 armed) = .next (startReset { armed with cmd := 0x0100 }) ∧
    (presented 0x0100 armed).rstok = true ∧ (startReset { armed with cmd := 0x0100 }).rstok = false :=
  ⟨inv_armed_presented, rfl, by decide, by decide⟩
theorem witness_RxdataWriters :
    rdbitEnding.Inv ∧ step rdbitEnding = .next (tick true { rdbitEnding with inbox := [] }) ∧
    (tick true { rdbitEnding with inbox := [] }).rxdata ≠ rdbitEnding.rxdata := ⟨inv_rdbitEnding, rfl, by decide⟩
theorem witness_CrcWriters :
    (presented 0x0902 State.reset).Inv ∧
    step (presented 0x0902 State.reset) = .next { State.reset with cmd := 0x0902, crc := 0xBC } ∧
    ({ State.reset with cmd := 0x0902, crc := 0xBC } : State).crc ≠ (presented 0x0902 State.reset).crc :=
  ⟨inv_presented, rfl, by decide⟩
theorem witness_ErrWriters :
    ({ rdbitEnding with err := .illegal } : State).Inv ∧
    step { rdbitEnding with err := .illegal } = .next (tick true { rdbitEnding with err := .illegal, inbox := [] }) ∧
    (tick true { rdbitEnding with err := .illegal, inbox := [] }).err ≠ .illegal :=
  ⟨⟨by decide, by decide, by decide, by decide, by decide, by decide⟩, rfl, by decide⟩
theorem witness_RunningCommandUndisturbed :
    rdbitEnding.busy = true ∧ rdbitEnding.ResetHeld ∧ (tick true sampling).busy = true := by decide
theorem witness_RdbitWholeRun :
    armed.cmdReady = true ∧ armed.rstok = true ∧ armed.cfg.Legal ∧
    (List.replicate 65 true).length = readSlotLength armed.cfg := by decide
theorem witness_RdbitWholeRun_unarmed : State.reset.cmdReady = true ∧ State.reset.rstok = false := by decide
theorem witness_WrbitWholeRun :
    armed.cmdReady = true ∧ armed.rstok = true ∧ armed.cfg.Legal ∧
    (List.replicate 65 true).length = writeSlotLength armed.cfg true ∧
    (List.replicate 65 true).length = writeSlotLength armed.cfg false := by decide
theorem witness_WrbitWholeRun_refused :
    State.reset.cmdReady = true ∧ State.reset.rstok = false ∧ (0xFE : Byte).extractLsb' 1 7 ≠ 0 := by decide
theorem witness_RdbyteWholeRun :
    armed.cmdReady = true ∧ armed.rstok = true ∧ armed.cfg.Legal ∧
    (List.replicate 520 true).length = 8 * readSlotLength armed.cfg := by rw [List.length_replicate]; decide
theorem witness_RdbyteWholeRun_unarmed : State.reset.cmdReady = true ∧ State.reset.rstok = false := by decide
theorem witness_WrbyteWholeRun :
    armed.cmdReady = true ∧ armed.rstok = true ∧ armed.cfg.Legal ∧
    (List.replicate 520 true).length = byteWriteLength armed.cfg 0xCC := by
  rw [List.length_replicate]; decide
theorem witness_WrbyteWholeRun_unarmed : State.reset.cmdReady = true ∧ State.reset.rstok = false := by decide

/-- V13: the earliest success, the line low until tick 499. -/
def earliestPresence : List Bool := List.replicate 499 false ++ List.replicate 6 true

/-- V15: the latest success, the release first seen by the last sample. -/
def latestPresence : List Bool := List.replicate 740 false ++ List.replicate 5 true

/-- A run that is low, then high, shows the pull-down at the first sample and the release where it turns high. -/
theorem presenceSeen_of_low_then_high {n m iRel : Nat} (hpos : 0 < iRel) (hlt : iRel < 50)
    (hn : 495 + 5 * (iRel - 1) < n) (hm : n ≤ 495 + 5 * iRel) (hlen : 495 + 5 * iRel < n + m) :
    PresenceSeen Config.Timing.default (List.replicate n false ++ List.replicate m true) 0 iRel := by
  have level : ∀ i, presenceLevel Config.Timing.default (List.replicate n false ++ List.replicate m true) i =
      ((List.replicate n false ++ List.replicate m true).getD (495 + 5 * i) true) := fun _ => rfl
  have low : ∀ i, 495 + 5 * i < n → presenceLevel Config.Timing.default
      (List.replicate n false ++ List.replicate m true) i = false := by
    intro i hi
    rw [level, List.getD_eq_getElem?_getD, List.getElem?_append_left (by simpa using hi)]
    simp [hi]
  refine ⟨hpos, hlt, by omega, low 0 (by omega), fun i _ hi => low i (by omega), ?_⟩
  rw [level, List.getD_eq_getElem?_getD, List.getElem?_append_right (by simpa using hm)]
  simp only [List.length_replicate]
  rw [List.getElem?_replicate]
  simp [show 495 + 5 * iRel - n < m by omega]

theorem witness_ResetSucceedsAfterPresence_earliest :
    State.reset.cmdReady = true ∧ State.reset.cfg.Legal ∧ PresenceSeen State.reset.cfg earliestPresence 0 1 ∧
    earliestPresence.length = resetSuccessLength State.reset.cfg 1 :=
  ⟨by decide, by decide, presenceSeen_of_low_then_high (by omega) (by omega) (by omega) (by omega) (by omega),
    by rw [earliestPresence, List.length_append, List.length_replicate, List.length_replicate]; decide⟩
theorem witness_ResetSucceedsAfterPresence_latest :
    State.reset.cmdReady = true ∧ State.reset.cfg.Legal ∧ PresenceSeen State.reset.cfg latestPresence 0 49 ∧
    latestPresence.length = resetSuccessLength State.reset.cfg 49 :=
  ⟨by decide, by decide, presenceSeen_of_low_then_high (by omega) (by omega) (by omega) (by omega) (by omega),
    by rw [latestPresence, List.length_append, List.length_replicate, List.length_replicate]; decide⟩

/-- V10: an empty bus shows no presence. -/
theorem witness_ResetFailsWithoutPresence :
    State.reset.cmdReady = true ∧ State.reset.cfg.Legal ∧
    (List.replicate 745 true).length = resetFailureLength State.reset.cfg ∧
    ¬∃ iLow iRel, PresenceSeen State.reset.cfg (List.replicate 745 true) iLow iRel := by
  refine ⟨by decide, by decide, by rw [List.length_replicate]; decide, ?_⟩
  rintro ⟨iLow, iRel, _, _, _, hlow, _⟩
  rw [presenceLevel, List.getD_eq_getElem?_getD, List.getElem?_replicate] at hlow
  split at hlow <;> simp at hlow

theorem witness_WrbyteIsEightWrbits :
    armed.cmdReady = true ∧ armed.rstok = true ∧ armed.cfg.Legal ∧
    ∀ i, i < 8 → (List.replicate 65 true).length = writeSlotLength armed.cfg ((0xA5 : Byte).getLsbD i) := by decide
theorem witness_RdbyteIsEightRdbits :
    armed.cmdReady = true ∧ armed.rstok = true ∧ armed.cfg.Legal ∧
    ∀ i, i < 8 → (List.replicate 65 true).length = readSlotLength armed.cfg := by decide
theorem witness_TimedCommandsTerminate :
    rdbitEnding.Inv ∧ rdbitEnding.busy = true ∧ 770 ≤ (List.replicate 770 true).length :=
  ⟨inv_rdbitEnding, rfl, by rw [List.length_replicate]⟩
theorem witness_WriteOneLowIsShorter :
    armed.cmdReady = true ∧ armed.rstok = true ∧ armed.cfg.Legal ∧
    (List.replicate 65 true).length = writeSlotLength armed.cfg true ∧
    (List.replicate 65 false).length = writeSlotLength armed.cfg false := by decide
theorem witness_DurationsOverRanges : Config.Timing.default.Legal ∧ 49 < Config.Timing.default.nPoll.toNat := by decide
/-- P2's first pass returns C. -/
theorem witness_SearchStepCommands :
    ((searchNext SearchState.new).result (searchAnswer ([romA, romB, romC].map romBits)) []).2 = .code romC := by
  decide +kernel
theorem witness_EmptyBusGivesNoCode : State.reset.cmdReady = true ∧ State.reset.cfg.Legal := by decide

end Sys2Proof.Tests
end

section
/-! SUPPORT. What a microsecond and a step leave as they were: the frame of `tick` (R82) and of the timing parameters
(R5, R172). -/

namespace Sys2Proof.Machine

/-! ## What a tick neither reads nor writes -/

/-- `s` with the elements of `o` that no tick reads or writes: `CRC` (R16), the input pins (R45, R46, R170) and the
model's own account of the outside (log 1, log 2). -/
def withBystanders (o s : State) : State :=
  { s with crc := o.crc, rstN := o.rstN, cmdValid := o.cmdValid, cmd := o.cmd, srAddr := o.srAddr,
           inbox := o.inbox, draws := o.draws }

theorem startSlot_withBystanders (o s : State) :
    startSlot (withBystanders o s) = withBystanders o (startSlot s) := by
  obtain ⟨hop, h⟩ | ⟨hop, hbit, h⟩ | ⟨hop, hbit, h⟩ := startSlot_cases s
  · rw [h]; exact if_pos hop
  · rw [h]; exact (if_neg hop).trans (if_pos hbit)
  · rw [h]; exact (if_neg hop).trans (if_neg (Bool.eq_false_iff.mp hbit))

theorem endOfSlot_withBystanders (o s : State) :
    endOfSlot (withBystanders o s) = withBystanders o (endOfSlot s) := by
  obtain ⟨hop, h⟩ | ⟨hop, t, rfl, ⟨hlast, h⟩ | ⟨hlast, h⟩⟩ := endOfSlot_cases s
  · rw [h]; exact if_pos hop
  · rw [h]; exact (if_neg hop).trans (if_pos hlast)
  · rw [h, ← startSlot_withBystanders]; exact (if_neg hop).trans (if_neg hlast)

theorem advance_withBystanders (o s : State) : advance (withBystanders o s) = withBystanders o (advance s) := by
  have hfsm : (withBystanders o s).fsm = s.fsm := rfl
  cases h : s.fsm <;> simp only [advance, hfsm, h, endOfSlot_withBystanders]
  case rstPoll =>
    exact (apply_ite (withBystanders o) (s.poll = s.cfg.nPoll) (complete .noPresence s) (enter .rstPoll s)).symm
  all_goals rfl

theorem presenceSample_withBystanders (level : Bool) (o s : State) :
    presenceSample level (withBystanders o s) = withBystanders o (presenceSample level s) := by
  obtain ⟨rfl, h⟩ | ⟨rfl, hlow, h⟩ | ⟨rfl, hlow, h⟩ := presenceSample_cases level s
  · rfl
  · rw [h]; exact if_pos hlow
  · rw [h]; exact if_neg (Bool.eq_false_iff.mp hlow)

theorem sampleOnEntry_clears {s : State} (he : s.entry = true) (hp : s.fsm.samplesOnEntry = false) (level : Bool) :
    sampleOnEntry level s = { s with entry := false } := by
  cases h : s.fsm <;> simp_all [sampleOnEntry, Phase.samplesOnEntry]

theorem sampleOnEntry_withBystanders (level : Bool) (o s : State) :
    sampleOnEntry level (withBystanders o s) = withBystanders o (sampleOnEntry level s) := by
  obtain ⟨he, h⟩ | ⟨he, hp, h⟩ | ⟨he, hp, h⟩ | ⟨he, hp, h⟩ := sampleOnEntry_cases level s
  · rw [h]; exact sampleOnEntry_none (s := withBystanders o s) he level
  · rw [h]; exact sampleOnEntry_read (s := withBystanders o s) he hp level
  · rw [h, ← presenceSample_withBystanders]; exact sampleOnEntry_poll (s := withBystanders o s) he hp level
  · rw [h]; exact sampleOnEntry_clears (s := withBystanders o s) he hp level

theorem countDown_withBystanders (o s : State) :
    countDown (withBystanders o s) = withBystanders o (countDown s) := by
  by_cases h : s.tcnt - 1#9 = 0#9
  · rw [countDown_ends h, ← advance_withBystanders]; exact countDown_ends h
  · rw [countDown_counts h]; exact countDown_counts h

/-- A microsecond passes in the same way whatever `CRC`, the pins and the inbox hold. -/
theorem tick_withBystanders (dev : Bool) (o s : State) :
    tick dev (withBystanders o s) = withBystanders o (tick dev s) := by
  by_cases h : s.fsm = .idle
  · rw [tick_idle h, tick_idle (s := withBystanders o s) h]
  · rw [tick_busy h, tick_busy (s := withBystanders o s) h, sampleOnEntry_withBystanders, countDown_withBystanders]
    rfl

/-- A microsecond leaves them as they are. -/
theorem tick_keeps_bystanders (dev : Bool) (s : State) : tick dev s = withBystanders s (tick dev s) :=
  tick_withBystanders dev s s

@[simp] theorem tick_crc (dev : Bool) (s : State) : (tick dev s).crc = s.crc := by rw [tick_keeps_bystanders]; rfl
@[simp] theorem tick_rstN (dev : Bool) (s : State) : (tick dev s).rstN = s.rstN := by rw [tick_keeps_bystanders]; rfl
@[simp] theorem tick_cmdValid (dev : Bool) (s : State) : (tick dev s).cmdValid = s.cmdValid := by
  rw [tick_keeps_bystanders]; rfl
@[simp] theorem tick_cmd (dev : Bool) (s : State) : (tick dev s).cmd = s.cmd := by rw [tick_keeps_bystanders]; rfl
@[simp] theorem tick_srAddr (dev : Bool) (s : State) : (tick dev s).srAddr = s.srAddr := by
  rw [tick_keeps_bystanders]; rfl
@[simp] theorem tick_inbox (dev : Bool) (s : State) : (tick dev s).inbox = s.inbox := by
  rw [tick_keeps_bystanders]; rfl
@[simp] theorem tick_draws (dev : Bool) (s : State) : (tick dev s).draws = s.draws := by
  rw [tick_keeps_bystanders]; rfl

/-- A microsecond does not look at the inbox. -/
theorem tick_with_inbox (dev : Bool) (s : State) (events : List Event) :
    tick dev { s with inbox := events } = { tick dev s with inbox := events } := by
  calc tick dev { s with inbox := events }
      = withBystanders { s with inbox := events } (tick dev s) := tick_withBystanders dev { s with inbox := events } s
    _ = { withBystanders s (tick dev s) with inbox := events } := rfl
    _ = { tick dev s with inbox := events } := by rw [← tick_keeps_bystanders]

/-! ## What leaves the timing parameters -/

@[simp] theorem startSlot_cfg (s : State) : (startSlot s).cfg = s.cfg := by
  obtain ⟨_, h⟩ | ⟨_, _, h⟩ | ⟨_, _, h⟩ := startSlot_cases s <;> rw [h, enter_cfg]

@[simp] theorem startSlots_cfg (op : BitVec 4) (sh0 : Byte) (s : State) : (startSlots op sh0 s).cfg = s.cfg :=
  startSlot_cfg _

@[simp] theorem endOfSlot_cfg (s : State) : (endOfSlot s).cfg = s.cfg := by
  obtain ⟨_, h⟩ | ⟨_, t, rfl, ⟨_, h⟩ | ⟨_, h⟩⟩ := endOfSlot_cases s <;> simp [h]

@[simp] theorem advance_cfg (s : State) : (advance s).cfg = s.cfg := by
  rcases advance_cases s with ⟨_, h⟩ | ⟨_, h⟩ | ⟨_, h⟩ | ⟨_, _, h⟩ | ⟨_, _, h⟩ | ⟨_, h⟩ | ⟨_, h⟩ | ⟨_, h⟩ | ⟨_, h⟩ |
    ⟨_, h⟩ | ⟨_, h⟩ <;> simp [h]

@[simp] theorem presenceSample_cfg (level : Bool) (s : State) : (presenceSample level s).cfg = s.cfg := by
  obtain ⟨_, h⟩ | ⟨_, _, h⟩ | ⟨_, _, h⟩ := presenceSample_cases level s <;> rw [h]

@[simp] theorem sampleOnEntry_cfg (level : Bool) (s : State) : (sampleOnEntry level s).cfg = s.cfg := by
  obtain ⟨_, h⟩ | ⟨_, _, h⟩ | ⟨_, _, h⟩ | ⟨_, _, h⟩ := sampleOnEntry_cases level s <;> simp [h]

@[simp] theorem countDown_cfg (s : State) : (countDown s).cfg = s.cfg := by
  by_cases h : s.tcnt - 1#9 = 0#9
  · rw [countDown_ends h, advance_cfg]
  · rw [countDown_counts h]

@[simp] theorem tick_cfg (dev : Bool) (s : State) : (tick dev s).cfg = s.cfg := by
  by_cases h : s.fsm = .idle
  · rw [tick_idle h]
  · rw [tick_busy h, countDown_cfg, sampleOnEntry_cfg]

@[simp] theorem holdReset_cfg (s : State) : (holdReset s).cfg = s.cfg := by
  cases h : s.rstN
  · rw [holdReset_asserted h, hardwareReset_cfg]
  · rw [holdReset_released h]

@[simp] theorem applyEvent_cfg (e : Event) (s : State) : (applyEvent e s).cfg = s.cfg := by
  cases e with
  | tick dev => exact tick_cfg dev s
  | _ => rfl

@[simp] theorem deliver_cfg (e : Event) (s : State) : (deliver e s).cfg = s.cfg := by simp [deliver]

@[simp] theorem environment_cfg (s : State) : (environment s).cfg = s.cfg := by
  cases h : s.inbox with
  | nil => rw [environment_nil h, deliver_cfg]
  | cons e rest => rw [environment_cons h, deliver_cfg]

/-- The armed check adds no writer of the parameters to the command it guards (R63). -/
theorem whenArmed_cfg {effect : State → State} (he : ∀ s, (effect s).cfg = s.cfg) (s : State) :
    (whenArmed effect s).cfg = s.cfg := by
  cases h : s.rstok
  · rw [whenArmed_unarmed effect h, raise_cfg]
  · rw [whenArmed_armed effect h, he]

@[simp] theorem issued_cfg (i : Instr) (s : State) : (issued i s).cfg = s.cfg := by
  cases i with
  | reset => rfl
  | rdbit | rdbyte | wrbyte | sendcmd => exact whenArmed_cfg (startSlots_cfg _ _) s
  | wrbit imm8 =>
    simp only [issued]
    split
    · exact whenArmed_cfg (startSlots_cfg _ _) s
    · exact raise_cfg _ s
  | crcclr | crcbyte => rfl

/-- Settles O28: each of the three kinds of step leaves the parameters. -/
theorem stepKeepsTimingParameters : Obligations.StepKeepsTimingParameters := by
  intro s t hstep
  obtain ⟨i, _, _, _, h⟩ | ⟨e, _, _, _, h⟩ | ⟨_, h⟩ := step_cases s <;> cases h.symm.trans hstep
  · exact issued_cfg i _
  · exact raise_cfg .illegal _
  · exact environment_cfg s

end Sys2Proof.Machine
end

section
/-! SUPPORT. Steps over the inbox (log 1): one event of it, and a run of microseconds at its head (R7, R82). -/

namespace Sys2Proof.Machine

theorem step_inbox_cons {s : State} {e : Event} {rest : List Event} (hn : ¬(s.cmdValid = true ∧ s.cmdReady = true))
    (hin : s.inbox = e :: rest) : step s = .next (deliver e { s with inbox := rest }) := by
  rw [step, fetch_nothing hn, ← environment_cons hin]

/-- With `rst_n` released a microsecond is exactly R82's tick. -/
theorem deliver_tick {s : State} (hr : s.rstN = true) (dev : Bool) : deliver (.tick dev) s = tick dev s :=
  deliver_released hr ((tick_rstN dev s).trans hr)

theorem step_inbox_tick {s : State} {dev : Bool} {rest : List Event}
    (hn : ¬(s.cmdValid = true ∧ s.cmdReady = true)) (hr : s.rstN = true) (hin : s.inbox = .tick dev :: rest) :
    step s = .next (tick dev { s with inbox := rest }) := by
  rw [step_inbox_cons hn hin, deliver_tick (s := { s with inbox := rest }) hr]

theorem run_succ {s t : State} (h : step s = .next t) (k : Nat) :
    Sys2Proof.core.run (k + 1) s = Sys2Proof.core.run k t := by
  have hcore : Sys2Proof.core.step s = .next t := h
  simp only [Host.Core.run, hcore]

/-- Settles O8: nothing is fetched, so the outside acts, and a tick asserts no reset. -/
theorem stepDeliversNextEvent : Obligations.StepDeliversNextEvent := by
  intro s e rest hn hin
  refine ⟨step_inbox_cons hn hin, ?_⟩
  rintro dev rfl hr
  exact step_inbox_tick hn hr hin

/-- Settles O9, by induction on the microseconds: a tick leaves the pins that keep the port silent and the block out of
reset, and it does not look at the inbox, so taking the events off one by one is taking them off at once. -/
theorem stepsOverTicksAreTicks : Obligations.StepsOverTicksAreTicks := by
  intro devs rest
  induction devs with
  | nil =>
    rintro s _ _ hin
    simp only [List.map_nil, List.nil_append] at hin
    subst hin
    rfl
  | cons dev devs ih =>
    intro s hv hr hin
    have hstep := step_inbox_tick (by simp [hv]) hr hin
    calc Sys2Proof.core.run (devs.length + 1) s
        = Sys2Proof.core.run devs.length (tick dev { s with inbox := devs.map .tick ++ rest }) := run_succ hstep _
      _ = .next (ticks devs { tick dev { s with inbox := devs.map .tick ++ rest } with inbox := rest }) :=
          ih _ (by simp [hv]) (by simp [hr]) (by simp)
      _ = .next (ticks (dev :: devs) { s with inbox := rest }) := by rw [← tick_with_inbox, ticks_cons]

end Sys2Proof.Machine
end

section
/-! SUPPORT. The invariant of the block (R33, strengthened): reset meets it, every part of a microsecond keeps it, every
step keeps it. -/

namespace Sys2Proof.Machine

/-- The invariant but for what `rst_n = 0` asks of a state (R170): what R33 and the running command ask. No conjunct
looks at a pin, so the host and the reset pin may move without breaking it. -/
structure State.Sound (s : State) : Prop where
  legal : s.cfg.Legal
  control : s.ControlOk
  count : s.CountOk
  progress : s.ProgressOk
  command : s.CommandOk

theorem inv_iff (s : State) : s.Inv ↔ s.Sound ∧ s.ResetHeld :=
  ⟨fun ⟨hl, hc, ht, hp, ho, hh⟩ => ⟨⟨hl, hc, ht, hp, ho⟩, hh⟩,
    fun ⟨⟨hl, hc, ht, hp, ho⟩, hh⟩ => ⟨hl, hc, ht, hp, ho, hh⟩⟩

/-- The pins, `CRC` and the model's own fields are no part of the condition. -/
theorem sound_withBystanders {s : State} (h : s.Sound) (o : State) : (withBystanders o s).Sound :=
  ⟨h.legal, h.control, h.count, h.progress, h.command⟩

/-- `ERR` is no part of it either (R152). -/
theorem sound_raise {s : State} (h : s.Sound) (e : Err) : (raise e s).Sound :=
  ⟨h.legal, h.control, h.count, h.progress, h.command⟩

theorem State.Sound.busy_of_running {s : State} (h : s.Sound) (hp : s.fsm ≠ .idle) : s.busy = true :=
  Bool.eq_true_of_not_eq_false (mt h.control.1.mp hp)

/-! ## The two ways into a phase: `complete` (R84) and `enter` (R81) -/

/-- An idle block with its line released is sound, whatever its registers hold. -/
theorem sound_of_idle {s : State} (hl : s.cfg.Legal) (hf : s.fsm = .idle) (hb : s.busy = false) (hd : s.dqOe = false)
    (he : s.entry = false) (ht : s.tcnt = 0#9) (hp : s.poll.toNat ≤ s.cfg.nPoll.toNat) (hn : s.bitcnt.toNat ≤ 8) :
    s.Sound where
  legal := hl
  control := by simp [State.ControlOk, hf, hb, hd, he, ht, Phase.drive]
  count := fun hrun => absurd hf hrun
  progress := by simp [State.ProgressOk, hf, hp, hn, Phase.ofRead, Phase.ofWrite]
  command := by simp [State.CommandOk, hf, Phase.ofReset, Phase.ofRead, Phase.ofWrite]

theorem sound_complete {s : State} (hl : s.cfg.Legal) (ht : s.tcnt = 0#9) (hp : s.poll.toNat ≤ s.cfg.nPoll.toNat)
    (hn : s.bitcnt.toNat ≤ 8) (e : Err) : (complete e s).Sound :=
  sound_of_idle hl rfl rfl rfl rfl ht hp hn

theorem sound_hardwareReset {s : State} (hl : s.cfg.Legal) : (hardwareReset s).Sound :=
  sound_of_idle hl rfl rfl rfl rfl rfl (Nat.zero_le _) (Nat.zero_le _)

/-- Entering a phase loads its drive, its duration and its sample, so only progress and command are left to show. -/
theorem sound_enter {p : Phase} {s : State} (hp : p ≠ .idle) (hl : s.cfg.Legal) (hb : s.busy = true)
    (hprog : (enter p s).ProgressOk) (hcmd : (enter p s).CommandOk) : (enter p s).Sound where
  legal := hl
  control := by simp [State.ControlOk, hp, hb]
  count := fun _ => ⟨(Laws.Timing.duration_bounds hl hp).1, le_rfl⟩
  progress := hprog
  command := hcmd

/-- A phase of a slot asks for no more progress than that slots are left. -/
theorem sound_enter_slot {p : Phase} {s : State} (hp : p.ofRead = true ∨ p.ofWrite = true) (hl : s.cfg.Legal)
    (hb : s.busy = true) (hpoll : s.poll.toNat ≤ s.cfg.nPoll.toNat) (hn : s.bitcnt.toNat < 8)
    (hcmd : (enter p s).CommandOk) : (enter p s).Sound := by
  refine sound_enter ?_ hl hb ⟨hpoll, hn.le, ?_, ?_, ?_, fun _ => hn⟩ hcmd <;>
    cases p <;> simp [Phase.ofRead, Phase.ofWrite] at hp ⊢

/-- The next phase of the same kind belongs to the same command. -/
theorem commandOk_enter {p : Phase} {s : State} (hcmd : s.CommandOk) (hr : p.ofReset = s.fsm.ofReset)
    (hrd : p.ofRead = s.fsm.ofRead) (hwr : p.ofWrite = s.fsm.ofWrite) : (enter p s).CommandOk := by
  simpa [State.CommandOk, hr, hrd, hwr] using hcmd

/-- A slot that starts is sound when an armed bit or byte command has slots left (R63, R81). -/
theorem sound_startSlot {s : State} (hl : s.cfg.Legal) (hb : s.busy = true)
    (hop : (s.opc = 2#4 ∨ s.opc = 4#4) ∨ (s.opc = 3#4 ∨ s.opc = 5#4)) (ha : s.rstok = true)
    (hpoll : s.poll.toNat ≤ s.cfg.nPoll.toNat) (hn : s.bitcnt.toNat < 8) : (startSlot s).Sound := by
  obtain ⟨hread, h⟩ | ⟨hread, _, h⟩ | ⟨hread, _, h⟩ := startSlot_cases s <;> rw [h]
  · exact sound_enter_slot (by decide) hl hb hpoll hn ⟨nofun, fun _ => ⟨hread, ha⟩, nofun⟩
  · exact sound_enter_slot (by decide) hl hb hpoll hn ⟨nofun, nofun, fun _ => ⟨hop.resolve_left hread, ha⟩⟩
  · exact sound_enter_slot (by decide) hl hb hpoll hn ⟨nofun, nofun, fun _ => ⟨hop.resolve_left hread, ha⟩⟩

/-! ## A microsecond (R82) -/

/-- At the end of a slot the command completes or its next slot starts (R81). -/
theorem sound_endOfSlot {s : State} (hl : s.cfg.Legal) (hb : s.busy = true) (ht : s.tcnt = 0#9) (hprog : s.ProgressOk)
    (hcmd : s.CommandOk) (hslot : s.fsm.ofRead = true ∨ s.fsm.ofWrite = true) : (endOfSlot s).Sound := by
  obtain ⟨hpoll, hbits, _, _, _, hleft⟩ := hprog
  obtain ⟨_, hread, hwrite⟩ := hcmd
  have hlt : s.bitcnt.toNat < 8 := hleft hslot
  have hnext : (s.bitcnt + 1#4).toNat = s.bitcnt.toNat + 1 := by bv_omega
  have hop : (s.opc = 2#4 ∨ s.opc = 4#4) ∨ (s.opc = 3#4 ∨ s.opc = 5#4) :=
    hslot.imp (fun hr => (hread hr).1) (fun hw => (hwrite hw).1)
  have ha : s.rstok = true := hslot.elim (fun hr => (hread hr).2) (fun hw => (hwrite hw).2)
  obtain ⟨_, heq⟩ | ⟨_, t, rfl, ⟨_, heq⟩ | ⟨hmore, heq⟩⟩ := endOfSlot_cases s <;> rw [heq]
  · exact sound_complete hl ht hpoll hbits .ok
  · exact sound_complete (by exact hl) (by exact ht) (by exact hpoll) (hnext.trans_le hlt) .ok
  · refine sound_startSlot (by exact hl) hb hop ha hpoll ?_
    show (s.bitcnt + 1#4).toNat < 8
    have : s.bitcnt + 1#4 ≠ 8#4 := hmore
    bv_omega

/-- A phase that is over is followed by a sound one, or its command completes (R81). -/
theorem sound_advance {s : State} (hl : s.cfg.Legal) (hrun : s.fsm ≠ .idle) (hb : s.busy = true) (ht : s.tcnt = 0#9)
    (hprog : s.ProgressOk) (hcmd : s.CommandOk) : (advance s).Sound := by
  obtain ⟨hpoll, hbits, hearly, _, _, hleft⟩ := id hprog
  have hslot {p : Phase} (hp : p.ofRead = true ∨ p.ofWrite = true) (hr : p.ofReset = s.fsm.ofReset)
      (hrd : p.ofRead = s.fsm.ofRead) (hwr : p.ofWrite = s.fsm.ofWrite) : (enter p s).Sound :=
    sound_enter_slot hp hl hb hpoll (hleft (by rwa [← hrd, ← hwr])) (commandOk_enter hcmd hr hrd hwr)
  rcases advance_cases s with ⟨hf, _⟩ | ⟨hf, h⟩ | ⟨hf, h⟩ | ⟨_, _, h⟩ | ⟨hf, hn, h⟩ | ⟨_, h⟩ | ⟨hf, h⟩ | ⟨hf, h⟩ |
    ⟨hf, h⟩ | ⟨hf, h⟩ | ⟨hf, h⟩
  case inl => exact absurd hf hrun
  all_goals rw [h]
  · exact sound_enter nofun hl hb ⟨hpoll, hbits, fun _ => hearly (.inl hf), nofun, nofun, nofun⟩
      (commandOk_enter hcmd (hf ▸ rfl) (hf ▸ rfl) (hf ▸ rfl))
  · have hfirst : s.poll.toNat < s.cfg.nPoll.toNat := by
      obtain ⟨hzero, _⟩ := hearly (.inr hf)
      obtain ⟨_, _, _, ⟨hbudget, _⟩, _⟩ := hl
      rw [hzero]
      exact Nat.lt_of_lt_of_le (by decide) hbudget
    exact sound_enter nofun hl hb ⟨hpoll, hbits, nofun, fun _ _ => hfirst, nofun, nofun⟩
      (commandOk_enter hcmd (hf ▸ rfl) (hf ▸ rfl) (hf ▸ rfl))
  · exact sound_complete hl ht hpoll hbits .noPresence
  · have hlater : s.poll.toNat < s.cfg.nPoll.toNat := by bv_omega
    exact sound_enter nofun hl hb ⟨hpoll, hbits, nofun, fun _ _ => hlater, nofun, nofun⟩
      (commandOk_enter hcmd (hf ▸ rfl) (hf ▸ rfl) (hf ▸ rfl))
  · exact sound_complete hl ht hpoll hbits .ok
  · exact hslot (.inl rfl) (hf ▸ rfl) (hf ▸ rfl) (hf ▸ rfl)
  · exact hslot (.inl rfl) (hf ▸ rfl) (hf ▸ rfl) (hf ▸ rfl)
  · exact hslot (.inr rfl) (hf ▸ rfl) (hf ▸ rfl) (hf ▸ rfl)
  · exact hslot (.inr rfl) (hf ▸ rfl) (hf ▸ rfl) (hf ▸ rfl)
  · refine sound_endOfSlot hl hb ht hprog hcmd ?_
    rcases hf with hf | hf | hf <;> simp [hf, Phase.ofRead, Phase.ofWrite]

/-- Counting in a sound phase keeps it sound, and so does the phase change when the count is over (R82). -/
theorem sound_countDown {s : State} (h : s.Sound) (hrun : s.fsm ≠ .idle) : (countDown s).Sound := by
  by_cases hend : s.tcnt - 1#9 = 0#9
  · rw [countDown_ends hend]
    exact sound_advance (s := { s with tcnt := 0#9 }) h.legal hrun (h.busy_of_running hrun) rfl h.progress h.command
  · rw [countDown_counts hend]
    obtain ⟨hbusy, _, hdrive, hentry⟩ := h.control
    refine ⟨h.legal, ⟨hbusy, fun hf => absurd hf hrun, hdrive, hentry⟩, fun _ => ?_, h.progress, h.command⟩
    have hcount := h.count hrun
    show 1 ≤ (s.tcnt - 1#9).toNat ∧ (s.tcnt - 1#9).toNat ≤ (s.fsm.duration s.cfg).toNat
    bv_omega

/-- No condition asks for a sample to be pending. -/
theorem sound_entry_cleared {s : State} (h : s.Sound) : State.Sound { s with entry := false } := by
  obtain ⟨hbusy, hidle, hdrive, _⟩ := h.control
  obtain ⟨hpoll, hbits, hearly, _, hguard, hleft⟩ := h.progress
  exact ⟨h.legal, ⟨hbusy, fun hf => ⟨rfl, (hidle hf).2⟩, hdrive, nofun⟩, h.count,
    ⟨hpoll, hbits, hearly, nofun, hguard, hleft⟩, h.command⟩

/-- The high sample after a low one enters RST_GUARD in the middle of a tick (R82, R87). -/
theorem presenceSample_release {s : State} (hlow : s.seenLow = true) (hd : s.dqOe = false) (he : s.entry = false) :
    presenceSample true s = enter .rstGuard s := by
  cases s
  simp_all [presenceSample, enter, Phase.drive, Phase.samplesOnEntry, Phase.duration]

/-- A sample of `RST_POLL` uses up one of the samples left, or ends the polling after a low one (R82). -/
theorem sound_presenceSample {s : State} (h : s.Sound) (he : s.entry = false) (hf : s.fsm = .rstPoll)
    (hleft : s.poll.toNat < s.cfg.nPoll.toNat) (level : Bool) : (presenceSample level s).Sound := by
  have hused : (s.poll + 1#6).toNat ≤ s.cfg.nPoll.toNat := by bv_omega
  obtain ⟨hpoll, hbits, _, _, _, hslots⟩ := h.progress
  obtain ⟨_, heq⟩ | ⟨rfl, hlow, _⟩ | ⟨_, _, heq⟩ := presenceSample_cases level s
  · rw [heq]
    exact ⟨h.legal, h.control, h.count, ⟨hused, hbits, by simp [hf], by simp [he], fun _ => rfl, hslots⟩, h.command⟩
  · have hd : s.dqOe = false := by rw [h.control.2.2.1, hf]; rfl
    rw [presenceSample_release hlow hd he]
    exact sound_enter nofun h.legal (h.busy_of_running (by simp [hf]))
      ⟨hpoll, hbits, nofun, nofun, fun _ => hlow, nofun⟩ ⟨fun _ => h.command.1 (hf ▸ rfl), nofun, nofun⟩
  · rw [heq]
    exact ⟨h.legal, h.control, h.count, ⟨hused, hbits, by simp [hf], by simp [he], by simp [hf], hslots⟩, h.command⟩

theorem presenceSample_running {s : State} (hrun : s.fsm ≠ .idle) (level : Bool) :
    (presenceSample level s).fsm ≠ .idle := by
  obtain ⟨_, h⟩ | ⟨_, _, h⟩ | ⟨_, _, h⟩ := presenceSample_cases level s <;> rw [h]
  exacts [hrun, nofun, hrun]

theorem sampleOnEntry_running {s : State} (hrun : s.fsm ≠ .idle) (level : Bool) :
    (sampleOnEntry level s).fsm ≠ .idle := by
  obtain ⟨_, h⟩ | ⟨_, _, h⟩ | ⟨_, _, h⟩ | ⟨_, _, h⟩ := sampleOnEntry_cases level s <;> rw [h]
  exacts [hrun, hrun, presenceSample_running (by exact hrun) level, hrun]

/-- The first tick of a phase takes its sample, if any (R82). -/
theorem sound_sampleOnEntry {s : State} (h : s.Sound) (level : Bool) : (sampleOnEntry level s).Sound := by
  have hclear := sound_entry_cleared h
  obtain ⟨_, heq⟩ | ⟨_, _, heq⟩ | ⟨he, hf, heq⟩ | ⟨_, _, heq⟩ := sampleOnEntry_cases level s <;> rw [heq]
  · exact h
  · exact ⟨hclear.legal, hclear.control, hclear.count, hclear.progress, hclear.command⟩
  · obtain ⟨_, _, _, hbudget, _⟩ := h.progress
    exact sound_presenceSample hclear rfl hf (hbudget hf he) level
  · exact hclear

theorem sound_tick {s : State} (h : s.Sound) (dev : Bool) : (tick dev s).Sound := by
  by_cases hf : s.fsm = .idle
  · rwa [tick_idle hf]
  · rw [tick_busy hf]
    exact sound_countDown (sound_sampleOnEntry h _) (sampleOnEntry_running hf _)

/-! ## The outside and the issue step (R7, R63, R170) -/

theorem sound_holdReset {s : State} (h : s.Sound) : (holdReset s).Sound := by
  cases hr : s.rstN
  · rw [holdReset_asserted hr]; exact sound_hardwareReset h.legal
  · rwa [holdReset_released hr]

/-- With `rst_n` released nothing is held. -/
theorem resetHeld_released {s : State} (h : s.rstN = true) : s.ResetHeld :=
  fun hlow => absurd h (Bool.eq_false_iff.mp hlow)

theorem resetHeld_holdReset (s : State) : (holdReset s).ResetHeld := by
  cases hr : s.rstN
  · rw [holdReset_asserted hr]; exact fun _ => rfl
  · rw [holdReset_released hr]; exact resetHeld_released hr

/-- Every event but a microsecond moves pins only. -/
theorem sound_applyEvent {s : State} (h : s.Sound) (e : Event) : (applyEvent e s).Sound := by
  cases e with
  | tick dev => exact sound_tick h dev
  | _ => exact ⟨h.legal, h.control, h.count, h.progress, h.command⟩

theorem inv_deliver {s : State} (h : s.Sound) (e : Event) : (deliver e s).Inv :=
  (inv_iff _).mpr ⟨sound_holdReset (sound_applyEvent (sound_holdReset h) e), resetHeld_holdReset _⟩

/-- The outside acts by one event, which finds the block and its pins as they are. -/
theorem environment_eq (s : State) :
    ∃ e o, o.crc = s.crc ∧ o.rstN = s.rstN ∧ environment s = deliver e (withBystanders o s) := by
  cases hin : s.inbox with
  | nil => exact ⟨_, { s with draws := s.draws + 1 }, rfl, rfl, environment_nil hin⟩
  | cons e rest => exact ⟨e, { s with inbox := rest }, rfl, rfl, environment_cons hin⟩

theorem inv_environment {s : State} (h : s.Sound) : (environment s).Inv := by
  obtain ⟨e, o, _, _, heq⟩ := environment_eq s
  rw [heq]
  exact inv_deliver (sound_withBystanders h o) e

/-- What an issued command can do: start RESET, start an armed bit or byte command, end in an error, or work on `CRC`
(R63, R83, R122, R123). -/
inductive IssueOutcome (s : State) : Instr → State → Prop where
  | reset : IssueOutcome s .reset (startReset s)
  | slots (i : Instr) {op : BitVec 4} (sh0 : Byte) (hop : (op = 2#4 ∨ op = 4#4) ∨ (op = 3#4 ∨ op = 5#4))
      (ha : s.rstok = true) : IssueOutcome s i (startSlots op sh0 s)
  | error (i : Instr) (e : Err) : IssueOutcome s i (raise e s)
  | crcclr : IssueOutcome s .crcclr { s with crc := 0#8, err := .ok }
  | crcbyte (v : Byte) : IssueOutcome s (.crcbyte v) { s with crc := crc8Step s.crc v, err := .ok }

/-- A bit or byte command starts its first slot when armed and ends in an error when not (R63). -/
theorem issueOutcome_whenArmed (i : Instr) {op : BitVec 4} (hop : (op = 2#4 ∨ op = 4#4) ∨ (op = 3#4 ∨ op = 5#4))
    (sh0 : Byte) (s : State) : IssueOutcome s i (whenArmed (startSlots op sh0) s) := by
  cases ha : s.rstok
  · rw [whenArmed_unarmed _ ha]; exact .error i .notArmed
  · rw [whenArmed_armed _ ha]; exact .slots i sh0 hop ha

theorem issued_outcome (i : Instr) (s : State) : IssueOutcome s i (issued i s) := by
  cases i with
  | reset => exact .reset
  | rdbit | rdbyte | wrbyte | sendcmd => exact issueOutcome_whenArmed _ (by decide) _ s
  | wrbit imm8 =>
    simp only [issued]
    split
    · exact issueOutcome_whenArmed _ (by decide) _ s
    · exact .error _ .illegal
  | crcclr => exact .crcclr
  | crcbyte v => exact .crcbyte v

/-- A slot that starts only enters a phase (R81). -/
theorem startSlot_eq_enter (s : State) : ∃ p, startSlot s = enter p s := by
  obtain ⟨_, h⟩ | ⟨_, _, h⟩ | ⟨_, _, h⟩ := startSlot_cases s <;> exact ⟨_, h⟩

@[simp] theorem startSlot_rstok (s : State) : (startSlot s).rstok = s.rstok := by
  obtain ⟨p, h⟩ := startSlot_eq_enter s; rw [h, enter_rstok]
@[simp] theorem startSlot_err (s : State) : (startSlot s).err = s.err := by
  obtain ⟨p, h⟩ := startSlot_eq_enter s; rw [h, enter_err]
@[simp] theorem startSlot_rxdata (s : State) : (startSlot s).rxdata = s.rxdata := by
  obtain ⟨p, h⟩ := startSlot_eq_enter s; rw [h, enter_rxdata]
@[simp] theorem startSlot_crc (s : State) : (startSlot s).crc = s.crc := by
  obtain ⟨p, h⟩ := startSlot_eq_enter s; rw [h, enter_crc]
@[simp] theorem startSlot_rstN (s : State) : (startSlot s).rstN = s.rstN := by
  obtain ⟨p, h⟩ := startSlot_eq_enter s; rw [h, enter_rstN]

theorem rstN_of_issueOutcome {s t : State} {i : Instr} (ho : IssueOutcome s i t) : t.rstN = s.rstN := by
  cases ho with
  | slots => exact startSlot_rstN _
  | reset | error | crcclr | crcbyte => rfl

theorem sound_of_issueOutcome {s t : State} {i : Instr} (h : s.Sound) (ho : IssueOutcome s i t) : t.Sound := by
  cases ho with
  | reset =>
    exact sound_enter nofun h.legal rfl ⟨Nat.zero_le _, h.progress.2.1, fun _ => ⟨rfl, rfl⟩, nofun, nofun, nofun⟩
      ⟨fun _ => ⟨rfl, rfl⟩, nofun, nofun⟩
  | slots _ sh0 hop ha => exact sound_startSlot h.legal rfl hop ha h.progress.1 (Nat.zero_lt_succ _)
  | error _ e => exact sound_raise h e
  | crcclr | crcbyte => exact ⟨h.legal, h.control, h.count, h.progress, h.command⟩

theorem rstN_of_cmdReady {s : State} (h : s.cmdReady = true) : s.rstN = true := (Bool.and_eq_true_iff.mp h).1

theorem not_busy_of_cmdReady {s : State} (h : s.cmdReady = true) : s.busy = false := by
  simpa using (Bool.and_eq_true_iff.mp h).2

/-! ## The obligations -/

/-- Settles O26, by the three kinds of step: each keeps `Sound`, and a command is accepted only with `rst_n` released,
while the outside's event is followed by what `rst_n = 0` asks. -/
theorem stepKeepsInvariant : Obligations.StepKeepsInvariant := by
  intro s t hinv hstep
  obtain ⟨hs, _⟩ := (inv_iff s).mp hinv
  have hdropped : State.Sound { s with cmdValid := false } := sound_withBystanders hs { s with cmdValid := false }
  obtain ⟨i, _, hr, _, h⟩ | ⟨_, _, hr, _, h⟩ | ⟨_, h⟩ := step_cases s <;> cases h.symm.trans hstep
  · have ho := issued_outcome i { s with cmdValid := false }
    exact (inv_iff _).mpr ⟨sound_of_issueOutcome hdropped ho,
      resetHeld_released ((rstN_of_issueOutcome ho).trans (rstN_of_cmdReady hr))⟩
  · exact (inv_iff _).mpr ⟨sound_raise hdropped .illegal, resetHeld_released (rstN_of_cmdReady hr)⟩
  · exact inv_environment hs

/-- Settles O27: the reset state is one that hardware reset leaves as it is, with legal parameters. -/
theorem resetMeetsInvariant : Obligations.ResetMeetsInvariant :=
  (inv_iff _).mpr ⟨sound_hardwareReset (s := State.reset) (by decide), fun _ => hardwareReset_reset⟩

/-- Settles O29: a phase has at most the ticks of its duration left, which no legal choice puts above 500. -/
theorem invariantGivesRuleR33 : Obligations.InvariantGivesRuleR33 := by
  rintro s ⟨hl, ⟨hbusy, hidle, hdrive, _⟩, hcount, ⟨hpoll, hbits, _⟩, _, _⟩
  refine ⟨hbusy, fun hf => ⟨?_, (hidle hf).1⟩, fun hrun => ?_, ?_, hpoll, hbits⟩
  · rw [hdrive, hf]; rfl
  · exact ⟨(hcount hrun).1, (hcount hrun).2.trans (Laws.Timing.duration_bounds hl hrun).2⟩
  · rw [hdrive]; exact drive_eq_true_iff s.fsm

end Sys2Proof.Machine
end

section
/-! SUPPORT. Who writes the result registers RSTOK, ERR, RXDATA and CRC (R13 to R16): what a microsecond and a step can
do to them, said once, and the four statements that follow. -/

namespace Sys2Proof.Machine

/-- The result registers, BUSY and the opcode stand as they were. -/
structure SameResults (s t : State) : Prop where
  busy : t.busy = s.busy
  rstok : t.rstok = s.rstok
  err : t.err = s.err
  rxdata : t.rxdata = s.rxdata
  crc : t.crc = s.crc
  opc : t.opc = s.opc

theorem SameResults.refl (s : State) : SameResults s s := ⟨rfl, rfl, rfl, rfl, rfl, rfl⟩

theorem SameResults.trans {s t u : State} (h : SameResults s t) (h' : SameResults t u) : SameResults s u :=
  ⟨h'.busy.trans h.busy, h'.rstok.trans h.rstok, h'.err.trans h.err, h'.rxdata.trans h.rxdata, h'.crc.trans h.crc,
    h'.opc.trans h.opc⟩

/-! ## A microsecond -/

/-- What a microsecond does to the results: nothing, or it completes the running command, with anything but `OK` only
in a RESET (R81, R84). -/
inductive RunOutcome (s : State) : State → Prop where
  | keeps {t : State} (same : SameResults s t) : RunOutcome s t
  | completes (e : Err) {u : State} (run : s.fsm ≠ .idle) (same : SameResults s u)
      (he : e = .ok ∨ s.fsm.ofReset = true) : RunOutcome s (complete e u)

theorem endOfSlot_outcome {s : State} (hrun : s.fsm ≠ .idle) : RunOutcome s (endOfSlot s) := by
  obtain ⟨_, h⟩ | ⟨_, t, rfl, ⟨_, h⟩ | ⟨_, h⟩⟩ := endOfSlot_cases s <;> rw [h]
  · exact .completes .ok hrun (.refl s) (.inl rfl)
  · exact .completes .ok hrun ⟨rfl, rfl, rfl, rfl, rfl, rfl⟩ (.inl rfl)
  · obtain ⟨p, hp⟩ := startSlot_eq_enter _
    rw [hp]
    exact .keeps ⟨rfl, rfl, rfl, rfl, rfl, rfl⟩

theorem advance_outcome {s : State} (hrun : s.fsm ≠ .idle) : RunOutcome s (advance s) := by
  have henter (p : Phase) : RunOutcome s (enter p s) := .keeps ⟨rfl, rfl, rfl, rfl, rfl, rfl⟩
  rcases advance_cases s with ⟨hf, _⟩ | ⟨_, h⟩ | ⟨_, h⟩ | ⟨hf, _, h⟩ | ⟨_, _, h⟩ | ⟨_, h⟩ | ⟨_, h⟩ | ⟨_, h⟩ | ⟨_, h⟩ |
    ⟨_, h⟩ | ⟨_, h⟩
  case inl => exact absurd hf hrun
  all_goals rw [h]
  · exact henter .rstWait
  · exact henter .rstPoll
  · exact .completes .noPresence hrun (.refl s) (.inr (hf ▸ rfl))
  · exact henter .rstPoll
  · exact .completes .ok hrun (.refl s) (.inl rfl)
  · exact henter .rdWait
  · exact henter .rdRec
  · exact henter .w1Rec
  · exact henter .w0Rec
  · exact endOfSlot_outcome hrun

/-- The outcome of the rest of a tick is the outcome of the tick when what came before left the results and the kind of
command. -/
theorem RunOutcome.of_same {s t r : State} (h : RunOutcome t r) (same : SameResults s t)
    (hidle : s.fsm = .idle → t.fsm = .idle) (hkind : t.fsm.ofReset = s.fsm.ofReset) : RunOutcome s r := by
  cases h with
  | keeps same' => exact .keeps (same.trans same')
  | completes e hrun same' he => exact .completes e (mt hidle hrun) (same.trans same') (hkind ▸ he)

theorem countDown_outcome {s : State} (hrun : s.fsm ≠ .idle) : RunOutcome s (countDown s) := by
  by_cases hend : s.tcnt - 1#9 = 0#9
  · rw [countDown_ends hend]
    exact (advance_outcome (s := { s with tcnt := 0#9 }) hrun).of_same ⟨rfl, rfl, rfl, rfl, rfl, rfl⟩ id rfl
  · rw [countDown_counts hend]
    exact .keeps ⟨rfl, rfl, rfl, rfl, rfl, rfl⟩

/-- A presence sample may end the polling, which is still RESET, and writes no result. -/
theorem presenceSample_frame {s : State} (hf : s.fsm = .rstPoll) (level : Bool) :
    SameResults s (presenceSample level s) ∧ (presenceSample level s).fsm.ofReset = s.fsm.ofReset := by
  obtain ⟨_, h⟩ | ⟨_, _, h⟩ | ⟨_, _, h⟩ := presenceSample_cases level s <;> rw [h] <;>
    exact ⟨⟨rfl, rfl, rfl, rfl, rfl, rfl⟩, by simp [hf, Phase.ofReset]⟩

theorem sampleOnEntry_frame (level : Bool) (s : State) :
    SameResults s (sampleOnEntry level s) ∧ (sampleOnEntry level s).fsm.ofReset = s.fsm.ofReset := by
  obtain ⟨_, h⟩ | ⟨_, _, h⟩ | ⟨_, hf, h⟩ | ⟨_, _, h⟩ := sampleOnEntry_cases level s <;> rw [h]
  · exact ⟨.refl s, rfl⟩
  · exact ⟨⟨rfl, rfl, rfl, rfl, rfl, rfl⟩, rfl⟩
  · obtain ⟨same, hkind⟩ := presenceSample_frame (s := { s with entry := false }) hf level
    exact ⟨.trans (t := { s with entry := false }) ⟨rfl, rfl, rfl, rfl, rfl, rfl⟩ same, hkind⟩
  · exact ⟨⟨rfl, rfl, rfl, rfl, rfl, rfl⟩, rfl⟩

theorem tick_outcome (dev : Bool) (s : State) : RunOutcome s (tick dev s) := by
  by_cases hf : s.fsm = .idle
  · rw [tick_idle hf]; exact .keeps (.refl s)
  · rw [tick_busy hf]
    obtain ⟨same, hkind⟩ := sampleOnEntry_frame (line dev s.dqOe) s
    exact (countDown_outcome (sampleOnEntry_running hf _)).of_same same (absurd · hf) hkind

/-! ## A step -/

theorem holdReset_of_resetHeld {s : State} (h : s.ResetHeld) : holdReset s = s := by
  cases hr : s.rstN
  · rw [holdReset_asserted hr, h hr]
  · exact holdReset_released hr

theorem resetHeld_withBystanders {o s : State} (h : s.ResetHeld) (hcrc : o.crc = s.crc) (hrst : o.rstN = s.rstN) :
    (withBystanders o s).ResetHeld := by
  intro hlow
  have hreset : hardwareReset s = s := h (hrst.symm.trans hlow)
  have hzero : o.crc = 0#8 := by rw [hcrc, ← hreset]; rfl
  calc hardwareReset (withBystanders o s)
      = withBystanders o (hardwareReset s) := by simp [hardwareReset, withBystanders, hzero]
    _ = withBystanders o s := by rw [hreset]

/-- An event that leaves `rst_n` released acts on the state as it is; otherwise `rst_n = 0` is in force after it. -/
theorem deliver_cases {s : State} (h : s.ResetHeld) (e : Event) :
    (deliver e s).rstN = false ∨ deliver e s = applyEvent e s := by
  rw [deliver, holdReset_of_resetHeld h]
  cases hr : (applyEvent e s).rstN
  · rw [holdReset_asserted hr]; exact .inl hr
  · exact .inr (holdReset_released hr)

/-- What an event of the outside does to the results is what a microsecond can do. -/
theorem applyEvent_outcome (e : Event) (s : State) : RunOutcome s (applyEvent e s) := by
  cases e with
  | tick dev => exact tick_outcome dev s
  | _ => exact .keeps ⟨rfl, rfl, rfl, rfl, rfl, rfl⟩

theorem environment_outcome {s : State} (h : s.ResetHeld) :
    (environment s).rstN = false ∨ RunOutcome s (environment s) := by
  obtain ⟨e, o, hcrc, hrst, heq⟩ := environment_eq s
  rw [heq]
  refine (deliver_cases (resetHeld_withBystanders h hcrc hrst) e).imp_right fun h => ?_
  rw [h]
  exact (applyEvent_outcome e _).of_same ⟨rfl, rfl, rfl, rfl, hcrc, rfl⟩ id rfl

/-- A step from a held state issues a command, refuses a word, leaves `rst_n = 0` in force, or does to the results
what a microsecond can do. -/
theorem step_outcome {s t : State} (h : s.ResetHeld) (hstep : step s = .next t) :
    (s.cmdValid = true ∧ s.cmdReady = true ∧
      ((∃ i, decode s.cmd = .ok i ∧ IssueOutcome { s with cmdValid := false } i t) ∨
        t = raise .illegal { s with cmdValid := false })) ∨
    t.rstN = false ∨ RunOutcome s t := by
  obtain ⟨i, hv, hr, hd, heq⟩ | ⟨_, hv, hr, _, heq⟩ | ⟨_, heq⟩ := step_cases s <;> cases heq.symm.trans hstep
  · exact .inl ⟨hv, hr, .inl ⟨i, hd, issued_outcome i _⟩⟩
  · exact .inl ⟨hv, hr, .inr rfl⟩
  · exact .inr (environment_outcome h)

/-! ## What a completion writes (R84) -/

theorem rstokAfter_reset {s : State} (h : s.opc = 1#4) (e : Err) : rstokAfter e s = decide (e = .ok) := if_pos h

theorem rstokAfter_other {s : State} (h : s.opc ≠ 1#4) (e : Err) : rstokAfter e s = s.rstok := if_neg h

theorem rxdataAfter_rdbit {s : State} (h : s.opc = 2#4) : rxdataAfter s = sampledBit s.sh := if_pos h

theorem rxdataAfter_rdbyte {s : State} (h : s.opc = 4#4) : rxdataAfter s = s.sh := by
  simp [rxdataAfter, h]

theorem rxdataAfter_other {s : State} (h : ¬(s.opc = 2#4 ∨ s.opc = 4#4)) : rxdataAfter s = s.rxdata := by
  simp_all [rxdataAfter]

/-- One bit as a byte is 0x00 or 0x01. -/
theorem sampledBit_eq_zero_or_one (sh : Byte) : sampledBit sh = 0x00#8 ∨ sampledBit sh = 0x01#8 := by
  unfold sampledBit
  cases sh.getLsbD 7 <;> decide

/-! ## The obligations -/

/-- Settles O30: RESET's acceptance clears RSTOK and no other command writes it; a completion sets it in RESET with
`OK`, and one with another result ends a RESET, during which RSTOK is 0. -/
theorem rstokWriters : Obligations.RstokWriters := by
  intro s t hinv hstep
  obtain ⟨hs, hheld⟩ := (inv_iff s).mp hinv
  obtain ⟨hv, hr, ⟨i, hd, ho⟩ | rfl⟩ | hlow | hrun := step_outcome hheld hstep
  · cases ho with
    | reset => exact ⟨nofun, fun _ _ => .inl ⟨hv, hr, hd⟩⟩
    | slots => simp_all [startSlots]
    | error | crcclr | crcbyte => simp_all
  · simp_all
  · have hclear : t.rstok = false := by
      rw [← ((inv_iff t).mp (stepKeepsInvariant s t hinv hstep)).2 hlow, hardwareReset_rstok]
    exact ⟨fun _ hset => absurd hset (by simp [hclear]), fun _ _ => .inr hlow⟩
  · cases hrun with
    | keeps same => simp_all [same.rstok]
    | completes e hrun same he =>
      obtain ⟨hreset, _, _⟩ := hs.command
      rw [complete_rstok]
      by_cases hop : s.opc = 1#4
      · rw [rstokAfter_reset (same.opc.trans hop)]
        refine ⟨fun _ hok => ⟨hs.busy_of_running hrun, hop, rfl, of_decide_eq_true hok⟩, fun harmed hfail => ?_⟩
        have hunarmed : s.rstok = false := (hreset (he.resolve_left (of_decide_eq_false hfail))).2
        exact absurd harmed (by simp [hunarmed])
      · rw [rstokAfter_other (by rwa [same.opc]), same.rstok]
        simp_all

/-- Settles O31: only a completion writes RXDATA, as its opcode says, and one with another result than `OK` is RESET's,
whose opcode leaves it. -/
theorem rxdataWriters : Obligations.RxdataWriters := by
  intro s t hinv hstep hne
  obtain ⟨hs, hheld⟩ := (inv_iff s).mp hinv
  obtain ⟨hv, hr, ⟨i, hd, ho⟩ | rfl⟩ | hlow | hrun := step_outcome hheld hstep
  · cases ho with
    | slots => simp [startSlots] at hne
    | reset | error | crcclr | crcbyte => exact absurd rfl hne
  · exact absurd rfl hne
  · exact .inl hlow
  · cases hrun with
    | keeps same => exact absurd same.rxdata hne
    | completes e hrun same he =>
      rw [complete_rxdata] at hne ⊢
      have hread := by_contra fun hother => hne ((rxdataAfter_other hother).trans same.rxdata)
      have hok : e = .ok := by
        refine he.resolve_right fun hreset => ?_
        rw [same.opc, (hs.command.1 hreset).1] at hread
        exact absurd hread (by decide)
      refine .inr ⟨hs.busy_of_running hrun, rfl, hok, ?_⟩
      rw [← same.opc]
      refine hread.imp (fun hbit => ?_) (fun hbyte => ⟨hbyte, rxdataAfter_rdbyte hbyte⟩)
      rw [rxdataAfter_rdbit hbit]
      exact ⟨hbit, rfl, sampledBit_eq_zero_or_one _⟩

/-- Settles O32: no microsecond writes CRC, and of the commands only the two CRC commands do, on the state with
`cmd_valid` dropped. -/
theorem crcWriters : Obligations.CrcWriters := by
  intro s t hinv hstep hne
  obtain ⟨hs, hheld⟩ := (inv_iff s).mp hinv
  obtain ⟨hv, hr, ⟨i, hd, ho⟩ | rfl⟩ | hlow | hrun := step_outcome hheld hstep
  · cases ho with
    | slots => simp [startSlots] at hne
    | reset | error => exact absurd rfl hne
    | crcclr => exact .inr ⟨hv, hr, .inl ⟨hd, rfl⟩⟩
    | crcbyte v => exact .inr ⟨hv, hr, .inr ⟨v, hd, rfl⟩⟩
  · exact absurd rfl hne
  · exact .inl hlow
  · cases hrun with
    | keeps same => exact absurd same.crc hne
    | completes _ _ same => exact absurd same.crc hne

/-- Settles O33: a timed command that starts leaves ERR, every other command leaves the ready block not busy, and a
microsecond writes ERR only as it completes the running command. -/
theorem errWriters : Obligations.ErrWriters := by
  intro s t hinv hstep hne
  obtain ⟨hs, hheld⟩ := (inv_iff s).mp hinv
  obtain ⟨hv, hr, ⟨i, hd, ho⟩ | rfl⟩ | hlow | hrun := step_outcome hheld hstep
  · cases ho with
    | slots => simp [startSlots] at hne
    | reset => exact absurd rfl hne
    | error | crcclr | crcbyte => exact .inr (.inl ⟨hv, hr, not_busy_of_cmdReady hr⟩)
  · exact .inr (.inl ⟨hv, hr, not_busy_of_cmdReady hr⟩)
  · exact .inl hlow
  · cases hrun with
    | keeps same => exact absurd same.err hne
    | completes _ hrun => exact .inr (.inr ⟨hs.busy_of_running hrun, rfl, rfl, rfl⟩)

end Sys2Proof.Machine
end

section
/-! SUPPORT. The ports and the line (`20_memory.md`): who looks at the line (R42, R43), what the host's pins do to the
block (R45, R46, R53), and the status space as the host reads it (R17, R47). -/

namespace Sys2Proof.Machine

/-! ## The line -/

/-- The two phases that take a sample (R80). -/
theorem samplesOnEntry_eq_true_iff (p : Phase) : p.samplesOnEntry = true ↔ p = .rdRec ∨ p = .rstPoll := by
  cases p <;> decide

theorem sampleOnEntry_level_irrelevant {s : State} (h : ¬(s.entry = true ∧ (s.fsm = .rdRec ∨ s.fsm = .rstPoll)))
    (level₁ level₂ : Bool) : sampleOnEntry level₁ s = sampleOnEntry level₂ s := by
  cases he : s.entry
  · rw [sampleOnEntry_none he, sampleOnEntry_none he]
  · have hp : s.fsm.samplesOnEntry = false :=
      Bool.eq_false_iff.mpr fun hs => h ⟨he, (samplesOnEntry_eq_true_iff _).mp hs⟩
    rw [sampleOnEntry_clears he hp, sampleOnEntry_clears he hp]

theorem tick_dev_irrelevant {s : State} (h : ¬(s.entry = true ∧ (s.fsm = .rdRec ∨ s.fsm = .rstPoll)))
    (dev₁ dev₂ : Bool) : tick dev₁ s = tick dev₂ s := by
  by_cases hf : s.fsm = .idle
  · rw [tick_idle hf, tick_idle hf]
  · rw [tick_busy hf, tick_busy hf, sampleOnEntry_level_irrelevant h]

/-- Settles O22: the environment bit reaches a tick through its sample only, and a pending sample means a phase that
samples and so releases the line. -/
theorem samplesOnlyOnEntryTicks : Obligations.SamplesOnlyOnEntryTicks := by
  refine ⟨fun s dev₁ dev₂ h => tick_dev_irrelevant h dev₁ dev₂, ?_⟩
  rintro s dev ⟨_, ⟨_, _, hdrive, hpending⟩, _⟩ he
  have hsamples : s.fsm.samplesOnEntry = true := hpending he
  have hreleased : s.dqOe = false := hdrive.trans (samplesOnEntry_released hsamples)
  exact ⟨(samplesOnEntry_eq_true_iff _).mp hsamples, hreleased, by rw [hreleased, line_released]⟩

/-- Settles O21: the line's definition, R42's reading of it, and the pulled-up line that nothing drives. -/
theorem lineResolution : Obligations.LineResolution :=
  ⟨fun _ _ => rfl, line_eq_false_iff, line_released true⟩

/-! ## The host's pins -/

/-- An event acts on the state as it is when `rst_n = 0` asks nothing more of the state before or after it. -/
theorem deliver_of_resetHeld {s : State} {e : Event} (h : s.ResetHeld) (h' : (applyEvent e s).ResetHeld) :
    deliver e s = applyEvent e s := by
  rw [deliver, holdReset_of_resetHeld h, holdReset_of_resetHeld h']

theorem deliver_present {s : State} (h : s.ResetHeld) (w : CmdWord) :
    deliver (.present w) s = { s with cmdValid := true, cmd := w } :=
  deliver_of_resetHeld h (resetHeld_withBystanders (o := { s with cmdValid := true, cmd := w }) h rfl rfl)

theorem deliver_withdraw {s : State} (h : s.ResetHeld) : deliver .withdraw s = { s with cmdValid := false } :=
  deliver_of_resetHeld h (resetHeld_withBystanders (o := { s with cmdValid := false }) h rfl rfl)

theorem deliver_readStatus {s : State} (h : s.ResetHeld) (a : BitVec 2) :
    deliver (.readStatus a) s = { s with srAddr := a } :=
  deliver_of_resetHeld h (resetHeld_withBystanders (o := { s with srAddr := a }) h rfl rfl)

theorem not_cmdReady_of_busy {s : State} (h : s.busy = true) : s.cmdReady = false := by simp [State.cmdReady, h]

/-- A command that still runs has written no result (R53 (d)). -/
theorem RunOutcome.same_of_busy {s t : State} (h : RunOutcome s t) (hb : t.busy = true) : SameResults s t := by
  cases h with
  | keeps same => exact same
  | completes e => exact absurd hb (Bool.eq_false_iff.mp (complete_busy e _))

/-- Settles O34: the host's events write pins, no command is accepted by a busy block, and a microsecond that writes a
result completes the command. -/
theorem runningCommandUndisturbed : Obligations.RunningCommandUndisturbed := by
  refine ⟨fun s w a hb hheld => ⟨deliver_present hheld w, deliver_withdraw hheld, deliver_readStatus hheld a,
    exec_not_ready (not_cmdReady_of_busy hb)⟩, fun s dev hb => ?_⟩
  have same := (tick_outcome dev s).same_of_busy hb
  exact ⟨same.err, same.rxdata, same.crc, same.rstok⟩

/-! ## The command port -/

/-- Settles O7: the command fetched from the port is the one its word decodes to. -/
theorem stepRunsDecodedCommand : Obligations.StepRunsDecodedCommand := by
  intro s i hv hr hd
  rw [step, fetch_legal hv hr hd]

theorem step_illegal {s : State} {e : DecodeError} (hv : s.cmdValid = true) (hr : s.cmdReady = true)
    (hd : decode s.cmd = .error e) : step s = .next (raise .illegal { s with cmdValid := false }) := by
  rw [step, fetch_illegal hv hr hd]

theorem cmdReady_iff (s : State) : s.cmdReady = true ↔ s.rstN = true ∧ s.busy = false := by simp [State.cmdReady]

theorem cmdReady_released {s : State} (h : s.rstN = true) : s.cmdReady = !s.busy := by simp [State.cmdReady, h]

theorem issued_rstN (i : Instr) (s : State) : (issued i s).rstN = s.rstN := rstN_of_issueOutcome (issued_outcome i s)

/-- Settles O11, clause by clause: an acceptance is the issue step, only `cmd_ready = 1` allows one, and no command
writes `rst_n`, so that after it BUSY alone decides whether the port is ready. -/
theorem commandPortHandshake : Obligations.CommandPortHandshake := by
  refine ⟨cmdReady_iff, fun s i hv hr hd => ⟨false, stepRunsDecodedCommand s i hv hr hd⟩,
    fun s e hv hr hd => ⟨false, step_illegal hv hr hd⟩, fun s i hn => exec_not_ready hn i,
    fun s hn => fetch_nothing (by simp [hn]), ?held, fun s w hheld => ⟨deliver_present hheld w, deliver_withdraw hheld⟩,
    ?oneCommand⟩
  case held =>
    rintro s e hr (⟨dev, rfl⟩ | ⟨a, rfl⟩)
    · rw [deliver_tick hr]
      exact ⟨tick_cmdValid dev s, tick_cmd dev s⟩
    · rw [deliver_readStatus (resetHeld_released hr)]
      exact ⟨rfl, rfl⟩
  case oneCommand =>
    intro s t i hr hexec
    cases (exec_ready hr i).symm.trans hexec
    exact cmdReady_released ((issued_rstN i s).trans (rstN_of_cmdReady hr))

/-! ## The status space -/

@[simp] theorem sr_zero (s : State) : s.sr 0 = s.status := rfl
@[simp] theorem sr_one (s : State) : s.sr 1 = s.rxdata := rfl
@[simp] theorem sr_two (s : State) : s.sr 2 = s.crc := rfl
@[simp] theorem sr_three (s : State) : s.sr 3 = 0 := rfl

/-- `STATUS` bit by bit, from the low end: BUSY, RSTOK, the two bits of ERR, zeros (R11). -/
theorem status_bit (s : State) (i : Nat) :
    s.status.getLsbD i = if i = 0 then s.busy else if i = 1 then s.rstok else s.err.code.getLsbD (i - 2) := by
  show BitVec.getLsbD
    (0#4 ++ s.err.code ++ BitVec.ofBool s.rstok ++ BitVec.ofBool s.busy : BitVec (4 + 2 + 1 + 1)) i = _
  simp only [BitVec.getLsbD_append]
  match i with
  | 0 => simp
  | 1 => simp
  | k + 2 =>
    by_cases hk : k < 2
    · simp [hk]
    · simp [hk, BitVec.getLsbD_of_ge s.err.code k (by omega)]

theorem status_err (s : State) : s.status.extractLsb' 2 2 = s.err.code := by
  apply BitVec.eq_of_getLsbD_eq
  intro i hi
  rw [BitVec.getLsbD_extractLsb', status_bit]
  simp [hi, show 2 + i ≠ 1 by omega]

theorem status_reserved (s : State) : s.status.extractLsb' 4 4 = 0 := by
  apply BitVec.eq_of_getLsbD_eq
  intro i hi
  rw [BitVec.getLsbD_extractLsb', status_bit, BitVec.getLsbD_of_ge s.err.code _ (by omega)]
  simp [show 4 + i ≠ 1 by omega]

/-- Settles O12: the read port is the status space at the address on the pins, and a read moves those pins only. -/
theorem statusReadPort : Obligations.StatusReadPort := by
  refine ⟨fun s => ⟨rfl, (status_bit s 0).symm⟩, fun s a hheld => ?_⟩
  rw [deliver_readStatus hheld]
  exact ⟨rfl, rfl⟩

/-- Settles O13: the fields of STATUS one by one, the three other addresses, and R150's codes. -/
theorem statusAddressMap : Obligations.StatusAddressMap := by
  intro s
  rw [sr_zero, sr_one, sr_two, sr_three]
  exact ⟨⟨status_bit s 0, status_bit s 1, status_err s, status_reserved s⟩, rfl, rfl, rfl,
    congrArg Err.code, congrArg Err.code, congrArg Err.code, congrArg Err.code⟩

end Sys2Proof.Machine
end

section
/-! SUPPORT. The encoding (`30_encoding.md`): the fields of a word (R60), the opcode map read in both directions (R62),
the illegal words and the number of the legal ones (R64), and the pseudo-instructions (R67). -/

namespace Sys2Proof.Machine

/-! ## The fields of a word -/

@[simp] theorem rsvField_encode (i : Instr) : rsvField (encode i) = 0#4 := (Laws.EncodedFields.fields_of_append _ _).1

@[simp] theorem opField_encode (i : Instr) : opField (encode i) = i.opcode :=
  (Laws.EncodedFields.fields_of_append _ _).2.1

@[simp] theorem immField_encode (i : Instr) : immField (encode i) = i.operand :=
  (Laws.EncodedFields.fields_of_append _ _).2.2

/-- A word is its three fields one after the other (R60). -/
theorem append_fields (w : CmdWord) : rsvField w ++ opField w ++ immField w = w := by
  have high : rsvField w ++ opField w = w.extractLsb' 8 8 := BitVec.extractLsb'_append_extractLsb'_eq_extractLsb' rfl
  rw [high]
  exact BitVec.extractLsb'_append_extractLsb'

theorem encode_eq_of_fields {i : Instr} {w : CmdWord} (hr : rsvField w = 0#4) (hop : i.opcode = opField w)
    (himm : i.operand = immField w) : encode i = w := by
  rw [encode, hop, himm, ← hr, append_fields]

/-! ## From a command to its word and back -/

theorem decodeOp_opcode_operand {i : Instr} (h : i.WellFormed) : decodeOp i.opcode i.operand = .ok i.core := by
  cases i with
  | wrbit imm8 => exact if_pos (beq_iff_eq.mp h)
  | reset | rdbit | rdbyte | wrbyte _ | sendcmd _ | crcclr | crcbyte _ => rfl

theorem decode_encode {i : Instr} (h : i.WellFormed) : decode (encode i) = .ok i.core := by
  rw [decode, if_pos (rsvField_encode i), opField_encode, immField_encode, decodeOp_opcode_operand h]

/-- Settles O1: the fields of the word are the opcode and the operand, and the opcode map gives the command for them. -/
theorem decodeEncodeRoundTrip : Obligations.DecodeEncodeRoundTrip := fun _ => decode_encode

/-! ## From a word to its command -/

/-- The opcodes that R62 assigns to no command. -/
def unassignedOpcodes : List (BitVec 4) := [0x0, 0x6, 0x7, 0xA, 0xB, 0xC, 0xD, 0xE, 0xF]

/-- The opcodes of the commands without an operand (R61, R62). -/
def noOperandOpcodes : List (BitVec 4) := [1, 2, 4, 8]

theorem opcode_cases : ∀ op : BitVec 4, op = 1#4 ∨ op = 2#4 ∨ op = 3#4 ∨ op = 4#4 ∨ op = 5#4 ∨ op = 8#4 ∨ op = 9#4 ∨
    op ∈ unassignedOpcodes := by decide

theorem decodeOp_unassigned (imm8 : Byte) :
    ∀ op ∈ unassignedOpcodes, decodeOp op imm8 = .error .unassignedOpcode := by
  simp [unassignedOpcodes, decodeOp]

/-- What the opcode map can answer for an opcode and an operand byte: the one core command that has them, or the reason
of R64 that rules them out. -/
inductive OpDecoded (op : BitVec 4) (imm8 : Byte) : Except DecodeError Instr → Prop where
  | command {i : Instr} (hop : i.opcode = op) (himm : i.operand = imm8) (hwf : i.WellFormed) (hcore : i.core = i) :
      OpDecoded op imm8 (.ok i)
  | unassigned (hop : op ∈ unassignedOpcodes) : OpDecoded op imm8 (.error .unassignedOpcode)
  | operand (hop : op ∈ noOperandOpcodes) (himm : imm8 ≠ 0#8) : OpDecoded op imm8 (.error .operandNotZero)
  | tooWide (hop : op = 3#4) (himm : imm8.extractLsb' 1 7 ≠ 0#7) : OpDecoded op imm8 (.error .bitOperandTooWide)

theorem decodeNoOperand_decoded {i : Instr} (hop : i.opcode ∈ noOperandOpcodes) (hzero : i.operand = 0#8)
    (hwf : i.WellFormed) (hcore : i.core = i) (imm8 : Byte) : OpDecoded i.opcode imm8 (decodeNoOperand i imm8) := by
  by_cases himm : imm8 = 0#8
  · rw [decodeNoOperand, if_pos himm]
    exact .command rfl (hzero.trans himm.symm) hwf hcore
  · rw [decodeNoOperand, if_neg himm]
    exact .operand hop himm

theorem decodeBitOperand_decoded (imm8 : Byte) : OpDecoded 3#4 imm8 (decodeBitOperand imm8) := by
  by_cases himm : imm8.extractLsb' 1 7 = 0#7
  · rw [decodeBitOperand, if_pos himm]
    exact .command rfl rfl (beq_iff_eq.mpr himm) rfl
  · rw [decodeBitOperand, if_neg himm]
    exact .tooWide rfl himm

theorem decodeOp_decoded (op : BitVec 4) (imm8 : Byte) : OpDecoded op imm8 (decodeOp op imm8) := by
  obtain rfl | rfl | rfl | rfl | rfl | rfl | rfl | hun := opcode_cases op
  · exact decodeNoOperand_decoded (i := .reset) (by decide) rfl rfl rfl imm8
  · exact decodeNoOperand_decoded (i := .rdbit) (by decide) rfl rfl rfl imm8
  · exact decodeBitOperand_decoded imm8
  · exact decodeNoOperand_decoded (i := .rdbyte) (by decide) rfl rfl rfl imm8
  · exact .command (i := .wrbyte imm8) rfl rfl rfl rfl
  · exact decodeNoOperand_decoded (i := .crcclr) (by decide) rfl rfl rfl imm8
  · exact .command (i := .crcbyte imm8) rfl rfl rfl rfl
  · rw [decodeOp_unassigned imm8 op hun]
    exact .unassigned hun

/-- R64's list of the illegal words. -/
def IllegalWord (w : CmdWord) : Prop :=
  rsvField w ≠ 0#4 ∨ opField w ∈ unassignedOpcodes ∨ (opField w ∈ noOperandOpcodes ∧ immField w ≠ 0#8) ∨
    (opField w = 3#4 ∧ (immField w).extractLsb' 1 7 ≠ 0#7)

/-- What the decoder can answer for a word. -/
inductive Decoded (w : CmdWord) : Except DecodeError Instr → Prop where
  | command {i : Instr} (hw : encode i = w) (hwf : i.WellFormed) (hcore : i.core = i) : Decoded w (.ok i)
  | illegal {e : DecodeError} (h : IllegalWord w) : Decoded w (.error e)

theorem OpDecoded.decoded {w : CmdWord} {r : Except DecodeError Instr} (h : OpDecoded (opField w) (immField w) r)
    (hr : rsvField w = 0#4) : Decoded w r := by
  cases h with
  | command hop himm hwf hcore => exact .command (encode_eq_of_fields hr hop himm) hwf hcore
  | unassigned hop => exact .illegal (.inr (.inl hop))
  | operand hop himm => exact .illegal (.inr (.inr (.inl ⟨hop, himm⟩)))
  | tooWide hop himm => exact .illegal (.inr (.inr (.inr ⟨hop, himm⟩)))

theorem decode_decoded (w : CmdWord) : Decoded w (decode w) := by
  by_cases hr : rsvField w = 0#4
  · rw [decode, if_pos hr]
    exact (decodeOp_decoded _ _).decoded hr
  · rw [decode, if_neg hr]
    exact .illegal (.inl hr)

/-- The decoder and the encoder are inverse to each other on the well-formed core commands. -/
theorem decode_eq_ok_iff {w : CmdWord} {i : Instr} :
    decode w = .ok i ↔ encode i = w ∧ i.WellFormed ∧ i.core = i := by
  constructor
  · intro h
    cases h ▸ decode_decoded w with
    | command hw hwf hcore => exact ⟨hw, hwf, hcore⟩
  · rintro ⟨rfl, hwf, hcore⟩
    rw [decode_encode hwf, hcore]

/-- Settles O2: what the decoder can answer with a command, by the reserved bits and the opcode map. -/
theorem decodedCommandEncodesBack : Obligations.DecodedCommandEncodesBack := fun _ _ => decode_eq_ok_iff.mp

/-! ## The illegal words -/

theorem not_illegalWord_encode {i : Instr} (h : i.WellFormed) : ¬ IllegalWord (encode i) := by
  unfold IllegalWord
  rw [rsvField_encode, opField_encode, immField_encode]
  cases i with
  | wrbit imm8 =>
    have hbit : imm8.extractLsb' 1 7 = 0#7 := beq_iff_eq.mp h
    simp [Instr.opcode, Instr.operand, unassignedOpcodes, noOperandOpcodes, hbit]
  | reset | rdbit | rdbyte | wrbyte _ | sendcmd _ | crcclr | crcbyte _ =>
    simp [Instr.opcode, Instr.operand, unassignedOpcodes, noOperandOpcodes]

theorem decode_error_iff (w : CmdWord) : (∃ e, decode w = .error e) ↔ IllegalWord w := by
  cases hd : decode w with
  | ok i =>
    obtain ⟨rfl, hwf, _⟩ := decode_eq_ok_iff.mp hd
    simp [not_illegalWord_encode hwf]
  | error e =>
    cases hd ▸ decode_decoded w with
    | illegal hill => exact ⟨fun _ => hill, fun _ => ⟨e, rfl⟩⟩

/-! ## The number of legal words -/

/-- The commands that a word can stand for: six without an operand or with a bit, and the two with a free byte (R61,
R62). -/
def coreCommands : Finset Instr :=
  {.reset, .rdbit, .wrbit 0#8, .wrbit 1#8, .rdbyte, .crcclr} ∪ (Finset.univ.image .wrbyte ∪ Finset.univ.image .crcbyte)

theorem bitOperand_iff (imm8 : Byte) : imm8.extractLsb' 1 7 = 0#7 ↔ imm8 = 0#8 ∨ imm8 = 1#8 := by
  have hlt : imm8.toNat < 2 ^ 8 := imm8.isLt
  simp only [← BitVec.toNat_inj, BitVec.extractLsb'_toNat, Nat.shiftRight_eq_div_pow, BitVec.toNat_ofNat]
  omega

/-- `Finset.singleton_union` stays out: with it the kernel evaluates the two images. -/
theorem mem_coreCommands (i : Instr) : i ∈ coreCommands ↔ i.WellFormed ∧ i.core = i := by
  rw [coreCommands]
  cases i with
  | wrbit imm8 => simp [-Finset.singleton_union, Instr.WellFormed, Instr.wf, Instr.core, bitOperand_iff]
  | reset | rdbit | rdbyte | wrbyte _ | sendcmd _ | crcclr | crcbyte _ =>
    simp [-Finset.singleton_union, Instr.WellFormed, Instr.wf, Instr.core]

/-- A sum of three sizes, stated for sets of any size so that the kernel counts none of them by evaluation. -/
theorem card_union_union {s t u : Finset Instr} {k m n : Nat} (hs : s.card = k) (ht : t.card = m) (hu : u.card = n)
    (hstu : Disjoint s (t ∪ u)) (htu : Disjoint t u) : (s ∪ (t ∪ u)).card = k + (m + n) := by
  rw [Finset.card_union_of_disjoint hstu, Finset.card_union_of_disjoint htu, hs, ht, hu]

theorem card_image_univ_byte {f : Byte → Instr} (hf : Function.Injective f) : (Finset.univ.image f).card = 256 := by
  rw [Finset.card_image_of_injective _ hf, Finset.card_univ, ← FinEnum.card_eq_fintypeCard, FinEnum.card_bitVec]
  rfl

theorem card_coreCommands : coreCommands.card = 518 :=
  card_union_union (k := 6) rfl (card_image_univ_byte fun _ _ => Instr.wrbyte.inj)
    (card_image_univ_byte fun _ _ => Instr.crcbyte.inj) (by simp [Finset.disjoint_left]) (by simp [Finset.disjoint_left])

theorem decodeTableWord_eq_some_iff {w : CmdWord} {i : Instr} :
    decodeTableWord 16 w.toNat = some i ↔ encode i = w ∧ i ∈ coreCommands := by
  have hword : wordOfTableBits 16 w.toNat = w := by
    rw [wordOfTableBits, Nat.mod_eq_of_lt w.isLt, BitVec.ofNat_toNat, BitVec.setWidth_eq]
  rw [mem_coreCommands, ← decode_eq_ok_iff, decodeTableWord, hword]
  cases decode w <;> simp

/-- The legal words are the words of the core commands, which have different words. -/
theorem card_legalWords :
    ((Finset.range 65536).filter (fun n => (decodeTableWord 16 n).isSome = true)).card = 518 := by
  rw [← card_coreCommands]
  symm
  refine Finset.card_bij (fun i _ => (encode i).toNat) ?legal ?injective ?surjective
  case legal =>
    intro i hi
    rw [Finset.mem_filter, Finset.mem_range, decodeTableWord_eq_some_iff.mpr ⟨rfl, hi⟩]
    exact ⟨(encode i).isLt, rfl⟩
  case injective =>
    intro i hi j hj hij
    have hi' := decodeTableWord_eq_some_iff.mpr ⟨rfl, hi⟩
    rw [hij, decodeTableWord_eq_some_iff.mpr ⟨rfl, hj⟩] at hi'
    exact (Option.some.inj hi').symm
  case surjective =>
    intro n hn
    rw [Finset.mem_filter, Finset.mem_range] at hn
    obtain ⟨hlt, hsome⟩ := hn
    obtain ⟨i, hi⟩ := Option.isSome_iff_exists.mp hsome
    have hword : (BitVec.ofNat 16 n).toNat = n := Nat.mod_eq_of_lt hlt
    rw [← hword] at hi
    obtain ⟨hencode, hmem⟩ := decodeTableWord_eq_some_iff.mp hi
    exact ⟨i, hmem, by rw [hencode, hword]⟩

/-- Settles O3: R64's list by what the decoder can answer, the issue step of an illegal word, and the words counted by
the commands they stand for. -/
theorem illegalCommandWords : Obligations.IllegalCommandWords :=
  ⟨decode_error_iff, fun _ _ hv hr hd => ⟨false, step_illegal hv hr hd⟩, card_legalWords⟩

/-! ## Words written out -/

/-- Settles O4: each legal word is `encode` of the command it stands for, and each illegal one shows its fault. -/
theorem opcodeMapWordsDecode : Obligations.OpcodeMapWordsDecode :=
  ⟨decode_encode (i := .reset) rfl, decode_encode (i := .rdbit) rfl, decode_encode (i := .wrbit 0) rfl,
    decode_encode (i := .wrbit 1) rfl, decode_encode (i := .rdbyte) rfl, decode_encode (i := .wrbyte 0xCC) rfl,
    decode_encode (i := .crcclr) rfl, decode_encode (i := .crcbyte 0x28) rfl,
    by decide, by decide, by decide, by decide⟩

/-! ## Pseudo-instructions -/

theorem encode_wrbyte (v : Byte) : encode (.wrbyte v) = (0x05 : Byte) ++ v :=
  congrArg (· ++ v) (by decide : 0#4 ++ 5#4 = 0x05#8)

theorem encode_crcbyte (v : Byte) : encode (.crcbyte v) = (0x09 : Byte) ++ v :=
  congrArg (· ++ v) (by decide : 0#4 ++ 9#4 = 0x09#8)

theorem map_encode_bytes {command : Byte → Instr} {op : Byte} (h : ∀ v, encode (command v) = op ++ v)
    (bytes : List Byte) : (bytes.map command).map encode = bytes.map (fun b => op ++ b) := by
  rw [List.map_map]
  exact List.map_congr_left fun v _ => h v

/-- Settles O6: the table's rows are the words of the expansion's commands, byte by byte where the row has bytes. -/
theorem pseudoInstructionsExpand : Obligations.PseudoInstructionsExpand :=
  ⟨fun v => congrArg (fun w => [w]) (encode_wrbyte v), rfl,
    fun code => congrArg (List.cons _) (map_encode_bytes encode_wrbyte code.toList), rfl, rfl, rfl,
    fun bytes => ⟨rfl, congrArg (List.cons _) (map_encode_bytes encode_crcbyte bytes)⟩⟩

end Sys2Proof.Machine
end

section
/-! SUPPORT. How the timed commands start (`40_bus_bit_ops.md` R83): RESET, and the first slot of an armed bit or byte
command. -/

namespace Sys2Proof.Machine

/-! ## The bit operand of WRBIT -/

theorem isBitOperand_ofBool (b : Bool) : isBitOperand ((BitVec.ofBool b).setWidth 8) = true := by cases b <;> decide

theorem lowBit_ofBool (b : Bool) : lowBit ((BitVec.ofBool b).setWidth 8) = b := by cases b <;> decide

theorem issued_wrbit_ofBool (b : Bool) (s : State) :
    issued (.wrbit ((BitVec.ofBool b).setWidth 8)) s =
      whenArmed (startSlots 3#4 ((BitVec.ofBool b).setWidth 8)) s := if_pos (isBitOperand_ofBool b)

/-! ## The first slot -/

/-- What the start of a bit or byte command writes before its first slot is entered (R83). -/
def slotRegisters (op : BitVec 4) (sh0 : Byte) (s : State) : State :=
  { s with opc := op, busy := true, bitcnt := 0#4, sh := sh0 }

/-- The first write slot sends bit 0 of the byte the shift register is loaded with (R81, R83). -/
theorem startSlots_write {op : BitVec 4} (h : ¬(op = 2#4 ∨ op = 4#4)) (sh0 : Byte) (s : State) :
    startSlots op sh0 s = enter (writeLow (lowBit sh0)) (slotRegisters op sh0 s) := by
  cases hb : lowBit sh0
  · exact startSlots_write_zero h hb s
  · exact startSlots_write_one h hb s

section Armed
variable {s : State} (hr : s.cmdReady = true) (ha : s.rstok = true)
include hr ha

theorem exec_rdbit_armed : exec .rdbit s = .next (enter .rdLow (slotRegisters 2#4 0#8 s)) := by
  rw [exec_ready hr, issued, whenArmed_armed _ ha, startSlots_read (by decide)]; rfl

theorem exec_rdbyte_armed : exec .rdbyte s = .next (enter .rdLow (slotRegisters 4#4 0#8 s)) := by
  rw [exec_ready hr, issued, whenArmed_armed _ ha, startSlots_read (by decide)]; rfl

theorem exec_wrbit_armed (b : Bool) :
    exec (.wrbit ((BitVec.ofBool b).setWidth 8)) s =
      .next (enter (writeLow b) (slotRegisters 3#4 ((BitVec.ofBool b).setWidth 8) s)) := by
  rw [exec_ready hr, issued_wrbit_ofBool, whenArmed_armed _ ha, startSlots_write (by decide), lowBit_ofBool]

theorem exec_wrbyte_armed (v : Byte) :
    exec (.wrbyte v) s = .next (enter (writeLow (lowBit v)) (slotRegisters 5#4 v s)) := by
  rw [exec_ready hr, issued, whenArmed_armed _ ha, startSlots_write (by decide)]

theorem exec_sendcmd_armed (v : Byte) :
    exec (.sendcmd v) s = .next (enter (writeLow (lowBit v)) (slotRegisters 5#4 v s)) :=
  exec_wrbyte_armed hr ha v

end Armed

/-- Entering a write slot written out (R81). -/
theorem enter_writeLow (b : Bool) (s : State) :
    enter (writeLow b) s =
      { s with fsm := if b then .w1Low else .w0Low, dqOe := true,
               tcnt := if b then s.cfg.tW1low else s.cfg.tW0low, entry := false } := by
  cases b <;> rfl

/-- Settles O14: each command's start is the entry into its first phase, which loads the phase's drive and duration. -/
theorem timedCommandsStart : Obligations.TimedCommandsStart := by
  refine fun s hr => ⟨exec_ready hr .reset, fun ha => ⟨exec_rdbit_armed hr ha, exec_rdbyte_armed hr ha, ?wrbit, ?byte⟩⟩
  case wrbit =>
    intro b
    rw [exec_wrbit_armed hr ha, enter_writeLow]
    rfl
  case byte =>
    rintro v i (rfl | rfl)
    · rw [exec_wrbyte_armed hr ha, enter_writeLow]
      rfl
    · rw [exec_sendcmd_armed hr ha, enter_writeLow]
      rfl

end Sys2Proof.Machine
end

section
/-! SUPPORT. A phase from its first tick to its last, the sample on entry included (`40_bus_bit_ops.md` R80 to R82). -/

namespace Sys2Proof.Machine

/-! ## The sample comes first -/

@[simp] theorem sampleOnEntry_entry (level : Bool) (s : State) : (sampleOnEntry level s).entry = false := by
  obtain ⟨he, h⟩ | ⟨_, _, h⟩ | ⟨_, _, h⟩ | ⟨_, _, h⟩ := sampleOnEntry_cases level s <;> rw [h]
  · exact he
  · obtain ⟨_, h⟩ | ⟨_, _, h⟩ | ⟨_, _, h⟩ := presenceSample_cases level { s with entry := false } <;> rw [h]

@[simp] theorem sampleOnEntry_dqOe (level : Bool) (s : State) : (sampleOnEntry level s).dqOe = s.dqOe := by
  obtain ⟨_, h⟩ | ⟨_, _, h⟩ | ⟨_, _, h⟩ | ⟨_, _, h⟩ := sampleOnEntry_cases level s <;> rw [h]
  obtain ⟨_, h⟩ | ⟨_, _, h⟩ | ⟨_, _, h⟩ := presenceSample_cases level { s with entry := false } <;> rw [h]

/-- `s` with the on-entry part of the first tick of `devs` done (R82). -/
def firstSample (devs : List Bool) (s : State) : State := sampleOnEntry (line (devs.getD 0 true) s.dqOe) s

theorem firstSample_running {s : State} (hrun : s.fsm ≠ .idle) (devs : List Bool) : (firstSample devs s).fsm ≠ .idle :=
  sampleOnEntry_running hrun _

@[simp] theorem firstSample_entry (devs : List Bool) (s : State) : (firstSample devs s).entry = false :=
  sampleOnEntry_entry _ s

@[simp] theorem firstSample_dqOe (devs : List Bool) (s : State) : (firstSample devs s).dqOe = s.dqOe :=
  sampleOnEntry_dqOe _ s

/-- Once the sample is taken, the tick goes on as one that takes none. -/
theorem tick_firstSample {s : State} (hrun : s.fsm ≠ .idle) (dev : Bool) (devs : List Bool) :
    tick dev (firstSample (dev :: devs) s) = tick dev s := by
  rw [tick_busy (firstSample_running hrun _), sampleOnEntry_none (firstSample_entry _ s), tick_busy hrun]
  rfl

theorem ticks_firstSample {s : State} (hrun : s.fsm ≠ .idle) (dev : Bool) (devs : List Bool) :
    ticks (dev :: devs) (firstSample (dev :: devs) s) = ticks (dev :: devs) s := by
  rw [ticks_cons, tick_firstSample hrun, ticks_cons]

/-- A whole phase, when its first sample leaves as many ticks in it as `devs` has: the state at the phase change, the
line, and the results until then. -/
theorem sampled_phase_run {devs : List Bool} {s : State} (hrun : s.fsm ≠ .idle) (hpos : 1 ≤ devs.length)
    (h : devs.length = (firstSample devs s).tcnt.toNat) :
    ticks devs s = advance { firstSample devs s with tcnt := 0#9 } ∧
    driveTrace devs s = List.replicate devs.length s.dqOe ∧ RunsQuietly devs s := by
  obtain ⟨dev, devs, rfl⟩ := List.exists_cons_of_length_pos hpos
  have hrun' := firstSample_running hrun (dev :: devs)
  have he := firstSample_entry (dev :: devs) s
  refine ⟨?state, ?line, ?quiet⟩
  case state =>
    rw [← ticks_firstSample hrun]
    exact ticks_whole_phase _ hrun' he (h ▸ hpos) h
  case line =>
    rw [driveTrace, ← tick_firstSample hrun dev devs, ← firstSample_dqOe (dev :: devs) s]
    exact driveTrace_within_phase (dev :: devs) hrun' he h.le
  case quiet =>
    intro k hk
    cases k with
    | zero => exact ⟨rfl, rfl, rfl, rfl⟩
    | succ k =>
      obtain ⟨same, _⟩ := sampleOnEntry_frame (line dev s.dqOe) s
      have hquiet := runsQuietly_phase _ hrun' he h.le (k + 1) hk
      rw [List.take_succ_cons, ticks_cons, tick_firstSample hrun] at hquiet
      obtain ⟨hbusy, hrxdata, herr, hrstok⟩ := hquiet
      exact ⟨hbusy.trans same.busy, hrxdata.trans same.rxdata, herr.trans same.err, hrstok.trans same.rstok⟩

/-! ## A phase just entered -/

/-- The first tick of any phase but `RST_POLL` writes no more than `entry` and, in `RD_REC`, the shift register. -/
theorem firstSample_enter {p : Phase} (hp : p ≠ .rstPoll) (devs : List Bool) (s : State) :
    firstSample devs (enter p s) =
      { enter p s with entry := false, sh := if p = .rdRec then shiftIn (devs.getD 0 true) s.sh else s.sh } := by
  by_cases hrec : p = .rdRec
  · subst hrec
    rw [firstSample, sampleOnEntry_read rfl rfl, enter_dqOe, show Phase.rdRec.drive = false from rfl, line_released]
    rfl
  · have hnone : p.samplesOnEntry = false :=
      Bool.eq_false_iff.mpr fun h => ((samplesOnEntry_eq_true_iff p).mp h).elim hrec hp
    rw [firstSample, sampleOnEntry_none hnone, if_neg hrec]
    simp [enter, hnone]

/-- Settles O23: after the first tick's sample the phase only counts, so fewer ticks than its duration leave the rest
of them and as many end it. -/
theorem phaseLastsItsDuration : Obligations.PhaseLastsItsDuration := by
  intro s p devs hidle hpoll hpos
  have hcount : (firstSample devs (enter p s)).tcnt = p.duration s.cfg := by rw [firstSample_enter hpoll]; rfl
  refine ⟨fun hlt => ?within, fun hlen => ?whole⟩
  case within =>
    cases devs with
    | nil => exact ⟨rfl, rfl, rfl⟩
    | cons dev devs =>
      rw [← ticks_firstSample (s := enter p s) hidle,
        ticks_within_phase _ (firstSample_running (s := enter p s) hidle _) (firstSample_entry _ _) (hcount ▸ hlt),
        hcount, firstSample_enter hpoll]
      refine ⟨rfl, rfl, ?_⟩
      have hlong := (p.duration s.cfg).isLt
      simp only [BitVec.toNat_sub, BitVec.toNat_ofNat]
      omega
  case whole =>
    obtain ⟨hend, _, _⟩ := sampled_phase_run (s := enter p s) hidle (hlen ▸ hpos) (by rw [hcount, hlen])
    rw [hend, firstSample_enter hpoll]

end Sys2Proof.Machine
end

section
/-! SUPPORT. The bit commands RDBIT and WRBIT from acceptance to completion (`40_bus_bit_ops.md` R85, R86, R88, R89). -/

namespace Sys2Proof.Machine

/-! ## Their completion (R81, R84) -/

theorem endOfSlot_bit {s : State} (h : s.opc = 2#4 ∨ s.opc = 3#4) : endOfSlot s = complete .ok s := if_pos h

theorem complete_rdbit {s : State} (h : s.opc = 2#4) :
    complete .ok s = { s with fsm := .idle, dqOe := false, entry := false, busy := false, err := .ok,
                              rxdata := sampledBit s.sh } := by
  rw [complete, rstokAfter_other (by rw [h]; decide), rxdataAfter_rdbit h]

theorem complete_write {s : State} (h : s.opc = 3#4 ∨ s.opc = 5#4) :
    complete .ok s = { s with fsm := .idle, dqOe := false, entry := false, busy := false, err := .ok } := by
  have hop : s.opc ≠ 1#4 ∧ ¬(s.opc = 2#4 ∨ s.opc = 4#4) := by
    obtain h | h := h <;> rw [h] <;> decide
  rw [complete, rstokAfter_other hop.1, rxdataAfter_other hop.2]

/-- The bit just sampled is the one RDBIT returns (R28, R84). -/
theorem sampledBit_shiftIn (level : Bool) (v : Byte) :
    sampledBit (shiftIn level v) = if level then 0x01#8 else 0x00#8 := by
  rw [sampledBit, shiftIn_bit level v (by decide), if_pos rfl]
  cases level <;> rfl

/-! ## RDBIT -/

theorem exec_rdbit_unarmed {s : State} (hr : s.cmdReady = true) (hu : s.rstok = false) :
    exec .rdbit s = .next { s with err := .notArmed } := by
  rw [exec_ready hr, issued, whenArmed_unarmed _ hu, raise]

/-- Settles O35: one read slot, at whose end RDBIT completes with the bit the slot has sampled. -/
theorem rdbitWholeRun : Obligations.RdbitWholeRun := by
  refine ⟨rfl, fun s hr hu => exec_rdbit_unarmed hr hu, fun s devs hr ha hc hlen => ?_⟩
  obtain ⟨hend, htrace, hquiet⟩ := readSlot_run (slotRegisters 2#4 0#8 s) devs hc hlen
  refine ⟨_, exec_rdbit_armed hr ha, htrace, fun k hk => ?_, ?_⟩
  · obtain ⟨hbusy, hrxdata, _, _⟩ := hquiet k hk
    exact ⟨hbusy, hrxdata⟩
  · rw [hend, endOfSlot_bit (.inl rfl), complete_rdbit rfl, sampledBit_shiftIn]
    rfl

/-! ## WRBIT -/

theorem exec_wrbit_unarmed {s : State} (hr : s.cmdReady = true) (hu : s.rstok = false) (b : Bool) :
    exec (.wrbit ((BitVec.ofBool b).setWidth 8)) s = .next { s with err := .notArmed } := by
  rw [exec_ready hr, issued_wrbit_ofBool, whenArmed_unarmed _ hu, raise]

theorem exec_wrbit_illegal {s : State} (hr : s.cmdReady = true) {imm8 : Byte} (h : imm8.extractLsb' 1 7 ≠ 0#7) :
    exec (.wrbit imm8) s = .next { s with err := .illegal } := by
  have hwide : isBitOperand imm8 ≠ true := mt beq_iff_eq.mp h
  rw [exec_ready hr, issued, if_neg hwide, raise]

/-- Settles O36: one write slot, at whose end WRBIT completes; the slot takes no sample, so the devices have no part in
it. -/
theorem wrbitWholeRun : Obligations.WrbitWholeRun := by
  refine ⟨rfl, rfl, fun s b hr hu => exec_wrbit_unarmed hr hu b, fun s imm8 hr h => exec_wrbit_illegal hr h,
    fun s b devs hr ha hc hlen => ?_⟩
  obtain ⟨hend, htrace, hquiet⟩ := writeSlot_run (slotRegisters 3#4 ((BitVec.ofBool b).setWidth 8) s) b devs hc hlen
  refine ⟨_, exec_wrbit_armed hr ha b, htrace, fun k hk => (hquiet k hk).1, ?_⟩
  rw [hend, endOfSlot_bit (.inr rfl), complete_write (.inl rfl)]
  cases b <;> rfl

/-! ## The low time of a write slot -/

theorem runTrace_wrbit {s : State} {b : Bool} {devs : List Bool} (hr : s.cmdReady = true) (ha : s.rstok = true)
    (hc : s.cfg.Legal) (hlen : devs.length = writeSlotLength s.cfg b) :
    runTrace (.wrbit ((BitVec.ofBool b).setWidth 8)) devs s = writeSlotTrace s.cfg b := by
  obtain ⟨_, _, _, _, hrun⟩ := wrbitWholeRun
  obtain ⟨t, hexec, htrace, _⟩ := hrun s b devs hr ha hc hlen
  rw [runTrace, hexec]
  exact htrace

theorem count_writeSlotTrace (c : Config.Timing) (b : Bool) :
    (writeSlotTrace c b).count true = if b then c.tW1low.toNat else c.tW0low.toNat := by
  cases b <;> simp [writeSlotTrace, List.count_replicate]

/-- Settles O45: the line is low for `T_W1LOW` and for `T_W0LOW` ticks, and R5 has the first below the second. -/
theorem writeOneLowIsShorter : Obligations.WriteOneLowIsShorter := by
  intro s devs₁ devs₀ hr ha hc hlen₁ hlen₀
  have hone : runTrace (.wrbit 1) devs₁ s = writeSlotTrace s.cfg true := runTrace_wrbit hr ha hc hlen₁
  have hzero : runTrace (.wrbit 0) devs₀ s = writeSlotTrace s.cfg false := runTrace_wrbit hr ha hc hlen₀
  rw [hone, hzero, count_writeSlotTrace, count_writeSlotTrace]
  exact Laws.Timing.legal_asymmetry hc

end Sys2Proof.Machine
end

section
/-! SUPPORT. RESET from acceptance to its success (`40_bus_bit_ops.md` R82, R87): the reset pulse, the presence poll
iteration by iteration, the guard. -/

namespace Sys2Proof.Machine

/-! ## Runs one after the other -/

/-- Over the ticks of `devs` the block goes from `s` to `t`, drives the line as `trace` says, and shows the results of
`s` until the last tick. -/
structure Runs (devs : List Bool) (s : State) (trace : List Bool) (t : State) : Prop where
  state : ticks devs s = t
  line : driveTrace devs s = trace
  quiet : RunsQuietly devs s

theorem Runs.nil (s : State) : Runs [] s [] s := ⟨rfl, rfl, nofun⟩

theorem Runs.append {d₁ d₂ r₁ r₂ : List Bool} {s t u : State} (h₁ : Runs d₁ s r₁ t) (same : SameResults s t)
    (h₂ : Runs d₂ t r₂ u) : Runs (d₁ ++ d₂) s (r₁ ++ r₂) u := by
  obtain ⟨rfl, rfl, hq₁⟩ := h₁
  obtain ⟨rfl, rfl, hq₂⟩ := h₂
  exact ⟨ticks_append d₁ d₂ s, driveTrace_append d₁ d₂ s,
    runsQuietly_append hq₁ ⟨same.busy, same.rxdata, same.err, same.rstok⟩ hq₂⟩

/-- A phase without a sample runs for its duration (R80). -/
theorem runs_enter {p : Phase} (hp : p ≠ .idle) (hs : p.samplesOnEntry = false) {s : State} (hc : s.cfg.Legal)
    {devs : List Bool} (h : devs.length = (p.duration s.cfg).toNat) :
    Runs devs (enter p s) (List.replicate devs.length p.drive) (advance { enter p s with tcnt := 0#9 }) := by
  obtain ⟨hend, hline, hquiet⟩ := enter_run hp hs s devs (Laws.Timing.duration_bounds hc hp).1 h
  exact ⟨hend, hline, hquiet⟩

/-! ## The presence poll -/

/-- The block at the start of an iteration of the presence poll: `i` samples are used up, and `low` says whether one of
them has read low. -/
def polling (s : State) (i : Nat) (low : Bool) : State :=
  enter .rstPoll { s with poll := BitVec.ofNat 6 i, seenLow := low }

/-- What `seen_low` holds before sample `i` of the poll (R26, R82). -/
def seenLowBefore (level : Nat → Bool) : Nat → Bool
  | 0 => false
  | i + 1 => seenLowBefore level i || !level i

theorem seenLowBefore_eq_true_iff (level : Nat → Bool) (i : Nat) :
    seenLowBefore level i = true ↔ ∃ j, j < i ∧ level j = false := by
  induction i with
  | zero => simp [seenLowBefore]
  | succ i ih => rw [Nat.exists_lt_succ_right, ← ih]; simp [seenLowBefore]

/-- A sample that does not end the poll is counted, and a low one is remembered (R82). -/
theorem firstSample_polling {i : Nat} {low : Bool} {devs : List Bool} (hgo : ¬(devs.getD 0 true = true ∧ low = true))
    (s : State) :
    firstSample devs (polling s i low) =
      { polling s (i + 1) (low || !devs.getD 0 true) with entry := false } := by
  have hcount : BitVec.ofNat 6 i + 1#6 = BitVec.ofNat 6 (i + 1) := (BitVec.ofNat_add i 1).symm
  rw [firstSample, sampleOnEntry_poll rfl rfl, polling, polling, ← hcount]
  cases hd : devs.getD 0 true
  · simp [presenceSample, enter, line]
  · obtain rfl : low = false := Bool.eq_false_iff.mpr fun hlow => hgo ⟨hd, hlow⟩
    rfl

/-- The high sample after a low one turns to the guard in the middle of its tick (R82, R87). -/
theorem firstSample_release {devs : List Bool} (hd : devs.getD 0 true = true) (s : State) (i : Nat) :
    firstSample devs (polling s i true) = enter .rstGuard { s with poll := BitVec.ofNat 6 i, seenLow := true } := by
  rw [firstSample, sampleOnEntry_poll rfl rfl, hd]
  exact presenceSample_release rfl rfl rfl

/-- One iteration of the poll that its sample does not end. -/
theorem runs_iteration {s : State} (hc : s.cfg.Legal) {i : Nat} {low : Bool} {devs : List Bool}
    (hlen : devs.length = s.cfg.tPoll.toNat) (hgo : ¬(devs.getD 0 true = true ∧ low = true)) :
    Runs devs (polling s i low) (List.replicate devs.length false)
      (advance { polling s (i + 1) (low || !devs.getD 0 true) with tcnt := 0#9, entry := false }) := by
  have hsample := firstSample_polling (i := i) hgo s
  obtain ⟨hpos, _⟩ := Laws.Timing.duration_bounds hc (p := .rstPoll) nofun
  obtain ⟨hend, hline, hquiet⟩ :=
    sampled_phase_run (s := polling s i low) nofun (hlen ▸ hpos) (by rw [hsample, hlen]; rfl)
  exact ⟨by rw [hend, hsample], hline, hquiet⟩

/-- With samples left in the budget the next iteration follows (R81). -/
theorem advance_polling {s : State} {i : Nat} (h : i < s.cfg.nPoll.toNat) (low : Bool) :
    advance { polling s i low with tcnt := 0#9, entry := false } = polling s i low := by
  have hmore : BitVec.ofNat 6 i ≠ s.cfg.nPoll := by
    intro hall
    have hvalue := congrArg BitVec.toNat hall
    simp only [BitVec.toNat_ofNat] at hvalue
    omega
  exact if_neg hmore

/-- `n` iterations, none of whose samples ends the poll. -/
theorem runs_polls {s : State} (hc : s.cfg.Legal) (level : Nat → Bool) {n : Nat} (hn : n < s.cfg.nPoll.toNat)
    (hgo : ∀ i, i < n → ¬(level i = true ∧ seenLowBefore level i = true)) {devs : List Bool}
    (hlen : devs.length = s.cfg.tPoll.toNat * n)
    (hlevel : ∀ i, i < n → devs.getD (s.cfg.tPoll.toNat * i) true = level i) :
    Runs devs (polling s 0 false) (List.replicate devs.length false) (polling s n (seenLowBefore level n)) := by
  induction n generalizing devs with
  | zero =>
    obtain rfl : devs = [] := List.eq_nil_of_length_eq_zero hlen
    exact .nil _
  | succ n ih =>
    obtain ⟨before, last, rfl, hbefore, hlast⟩ := exists_split2 devs _ _ (hlen.trans (Nat.mul_succ _ n))
    have hsample : last.getD 0 true = level n := by
      rw [← hlevel n n.lt_succ_self, List.getD_append_right _ _ _ _ hbefore.le, hbefore, Nat.sub_self]
    have hsamples (i : Nat) (hi : i < n) : before.getD (s.cfg.tPoll.toNat * i) true = level i := by
      obtain ⟨hpos, _⟩ := Laws.Timing.duration_bounds hc (p := .rstPoll) nofun
      rw [← hlevel i (by omega), List.getD_append _ _ _ _ (hbefore ▸ Nat.mul_lt_mul_of_pos_left hi hpos)]
    have hpolls := ih (by omega) (fun i hi => hgo i (by omega)) hbefore hsamples
    have hlastRun := runs_iteration (i := n) hc hlast (by rw [hsample]; exact hgo n n.lt_succ_self)
    rw [advance_polling hn, hsample] at hlastRun
    have hall := hpolls.append ⟨rfl, rfl, rfl, rfl, rfl, rfl⟩ hlastRun
    rwa [List.replicate_append_replicate, ← List.length_append] at hall

/-! ## The guard and the reset pulse -/

theorem complete_reset_ok {s : State} (h : s.opc = 1#4) :
    complete .ok s = { s with fsm := .idle, dqOe := false, entry := false, busy := false, err := .ok,
                              rstok := true } := by
  rw [complete, rstokAfter_reset h, rxdataAfter_other (by rw [h]; decide)]
  rfl

/-- The guard begins with the tick that has sampled the release, and RESET completes at its end (R87). -/
theorem runs_guard {s : State} (hc : s.cfg.Legal) (hop : s.opc = 1#4) (i : Nat) {devs : List Bool}
    (hlen : devs.length = s.cfg.tRstguard.toNat) (hd : devs.getD 0 true = true) :
    Runs devs (polling s i true) (List.replicate devs.length false)
      { s with busy := false, rstok := true, err := .ok, fsm := .idle, tcnt := 0#9, entry := false, dqOe := false,
               poll := BitVec.ofNat 6 i, seenLow := true } := by
  have hsample := firstSample_release hd s i
  obtain ⟨hpos, _⟩ := Laws.Timing.duration_bounds hc (p := .rstGuard) nofun
  obtain ⟨hend, hline, hquiet⟩ :=
    sampled_phase_run (s := polling s i true) nofun (hlen ▸ hpos) (by rw [hsample, hlen]; rfl)
  refine ⟨?_, hline, hquiet⟩
  rw [hend, hsample]
  exact complete_reset_ok hop

/-- What the start of RESET writes before `RST_LOW` is entered (R83). -/
def resetRegisters (s : State) : State :=
  { s with opc := 1#4, busy := true, rstok := false, poll := 0#6, seenLow := false }

/-- The line over the first `n` ticks of RESET: low for the pulse, then released (R87). -/
def resetTrace (c : Config.Timing) (n : Nat) : List Bool :=
  List.replicate c.tRstl.toNat true ++ List.replicate (n - c.tRstl.toNat) false

theorem resetTrace_append {c : Config.Timing} {n : Nat} (h : c.tRstl.toNat ≤ n) (m : Nat) :
    resetTrace c n ++ List.replicate m false = resetTrace c (n + m) := by
  rw [resetTrace, resetTrace, List.append_assoc, List.replicate_append_replicate, Nat.sub_add_comm h]

/-- The reset pulse and the wait before the first sample (R87). -/
theorem runs_resetPulse {s : State} (hc : s.cfg.Legal) {devs : List Bool} (hlen : devs.length = firstSampleTick s.cfg) :
    Runs devs (startReset s) (resetTrace s.cfg devs.length) (polling (resetRegisters s) 0 false) := by
  have hwaits : devs.length - s.cfg.tRstl.toNat = s.cfg.tRstrel.toNat := by rw [hlen, firstSampleTick]; omega
  rw [resetTrace, hwaits]
  obtain ⟨pulse, wait, rfl, hpulse, hwait⟩ := exists_split2 devs _ _ hlen
  have hlow := runs_enter (p := .rstLow) (s := resetRegisters s) nofun rfl hc hpulse
  have hhigh := runs_enter (p := .rstWait) (s := resetRegisters s) nofun rfl hc hwait
  rw [hpulse] at hlow
  rw [hwait] at hhigh
  exact hlow.append ⟨rfl, rfl, rfl, rfl, rfl, rfl⟩ hhigh

/-! ## The samples -/

/-- The ticks up to sample `n` have the samples before it. -/
theorem presenceLevel_append_left {c : Config.Timing} (hc : c.Legal) {before : List Bool} {n i : Nat}
    (h : before.length = firstSampleTick c + c.tPoll.toNat * n) (hi : i < n) (devs : List Bool) :
    presenceLevel c (before ++ devs) i = presenceLevel c before i := by
  obtain ⟨hpos, _⟩ := Laws.Timing.duration_bounds hc (p := .rstPoll) nofun
  exact List.getD_append _ _ _ _ (h ▸ Nat.add_lt_add_left (Nat.mul_lt_mul_of_pos_left hi hpos) _)

/-- Sample `n` is taken on the tick after them, and the later ones `T_POLL` ticks apart. -/
theorem presenceLevel_append_right {c : Config.Timing} {before : List Bool} {n : Nat}
    (h : before.length = firstSampleTick c + c.tPoll.toNat * n) (devs : List Bool) (i : Nat) :
    presenceLevel c (before ++ devs) (n + i) = devs.getD (c.tPoll.toNat * i) true := by
  have hat : firstSampleTick c + c.tPoll.toNat * (n + i) = before.length + c.tPoll.toNat * i := by
    rw [h, Nat.mul_add, Nat.add_assoc]
  rw [presenceLevel, hat, List.getD_append_right _ _ _ _ (Nat.le_add_right _ _), Nat.add_sub_cancel_left]

/-- RESET up to sample `n`, when no sample before it ends the poll. -/
theorem runs_resetPolls {s : State} (hc : s.cfg.Legal) {devs : List Bool} {n : Nat} (hn : n < s.cfg.nPoll.toNat)
    (hlen : devs.length = firstSampleTick s.cfg + s.cfg.tPoll.toNat * n) (level : Nat → Bool)
    (hlevel : ∀ i, i < n → presenceLevel s.cfg devs i = level i)
    (hgo : ∀ i, i < n → ¬(level i = true ∧ seenLowBefore level i = true)) :
    Runs devs (startReset s) (resetTrace s.cfg devs.length)
      (polling (resetRegisters s) n (seenLowBefore level n)) := by
  obtain ⟨pre, polls, rfl, hpre, hpolls⟩ := exists_split2 devs _ _ hlen
  have hsamples (i : Nat) (hi : i < n) : polls.getD (s.cfg.tPoll.toNat * i) true = level i := by
    rw [← hlevel i hi, ← Nat.zero_add i, presenceLevel_append_right (n := 0) hpre, Nat.zero_add]
  have hpoll := runs_polls (s := resetRegisters s) hc level hn hgo hpolls hsamples
  have hall := (runs_resetPulse hc hpre).append ⟨rfl, rfl, rfl, rfl, rfl, rfl⟩ hpoll
  rwa [resetTrace_append (hpre ▸ Nat.le_add_right _ _), ← List.length_append] at hall

section Presence
variable {c : Config.Timing} {devs : List Bool} {iLow iRel : Nat} (h : PresenceSeen c devs iLow iRel)
include h

theorem PresenceSeen.within_budget : iRel < c.nPoll.toNat := h.2.1

theorem PresenceSeen.release : presenceLevel c devs iRel = true := by
  obtain ⟨_, _, _, _, _, hrelease⟩ := h
  exact hrelease

/-- The release comes after a low sample. -/
theorem PresenceSeen.low_before_release : seenLowBefore (presenceLevel c devs) iRel = true := by
  obtain ⟨hlt, _, _, hlow, _, _⟩ := h
  exact (seenLowBefore_eq_true_iff _ _).mpr ⟨iLow, hlt, hlow⟩

/-- No sample before the release ends the poll: up to the first low one none is low, and from there on none is high. -/
theorem PresenceSeen.no_earlier_release {i : Nat} (hi : i < iRel) :
    ¬(presenceLevel c devs i = true ∧ seenLowBefore (presenceLevel c devs) i = true) := by
  obtain ⟨_, _, hhigh, hlow, hheld, _⟩ := h
  rintro ⟨hrelease, hseen⟩
  obtain ⟨j, hji, hj⟩ := (seenLowBefore_eq_true_iff _ _).mp hseen
  obtain hearly | rfl | hlate := lt_trichotomy i iLow
  · simp [hhigh j (hji.trans hearly)] at hj
  · simp [hlow] at hrelease
  · simp [hheld i hlate hi] at hrelease

end Presence

/-- A successful RESET: up to the sample that sees the release, and the guard. -/
theorem runs_resetSuccess {s : State} (hc : s.cfg.Legal) {devs : List Bool} {iLow iRel : Nat}
    (hseen : PresenceSeen s.cfg devs iLow iRel) (hlen : devs.length = resetSuccessLength s.cfg iRel) :
    Runs devs (startReset s) (resetTrace s.cfg devs.length)
      { s with busy := false, rstok := true, err := .ok, fsm := .idle, tcnt := 0#9, entry := false, dqOe := false,
               opc := 1#4, poll := BitVec.ofNat 6 iRel, seenLow := true } := by
  obtain ⟨before, guard, rfl, hbefore, hguard⟩ := exists_split2 devs _ _ hlen
  have hrelease : guard.getD 0 true = true :=
    (presenceLevel_append_right hbefore guard 0).symm.trans hseen.release
  have hpolls := runs_resetPolls hc hseen.within_budget hbefore (presenceLevel s.cfg (before ++ guard))
    (fun i hi => (presenceLevel_append_left hc hbefore hi guard).symm) (fun i hi => hseen.no_earlier_release hi)
  rw [hseen.low_before_release] at hpolls
  have hall := hpolls.append ⟨rfl, rfl, rfl, rfl, rfl, rfl⟩
    (runs_guard (s := resetRegisters s) hc rfl iRel hguard hrelease)
  have hpulse : s.cfg.tRstl.toNat ≤ before.length := by rw [hbefore, firstSampleTick]; omega
  rwa [resetTrace_append hpulse, ← List.length_append] at hall

/-- Settles O39: RESET's phases one after the other, the poll ended by the first high sample after a low one. -/
theorem resetSucceedsAfterPresence : Obligations.ResetSucceedsAfterPresence := by
  intro s devs iLow iRel hr hc hseen hlen
  obtain ⟨hend, hline, hquiet⟩ := runs_resetSuccess hc hseen hlen
  refine ⟨startReset s, exec_ready hr .reset, hline, fun k hk => ?_, hend⟩
  obtain ⟨hbusy, _, _, hrstok⟩ := hquiet k hk
  exact ⟨hbusy, hrstok⟩

end Sys2Proof.Machine
end

section
/-! SUPPORT. How long a timed command can still last (`40_bus_bit_ops.md` R91): a bound in ticks that every tick of a
running command lowers. -/

namespace Sys2Proof.Machine

/-! ## The bound -/

/-- The longest slot over the ranges of R5 (R85, R86). -/
def longestSlot : Nat := 70

/-- At most the ticks that the command in progress lasts after its current phase (R80, R85 to R87). A bit command counts
as the byte command that would have the same slots behind it. -/
def State.ticksAfterPhase (s : State) : Nat :=
  match s.fsm with
  | .idle | .rstGuard => 0
  | .rstLow => s.cfg.tRstrel.toNat + s.cfg.tPoll.toNat * s.cfg.nPoll.toNat
  | .rstWait => s.cfg.tPoll.toNat * s.cfg.nPoll.toNat
  | .rstPoll => s.cfg.tPoll.toNat * (s.cfg.nPoll.toNat - s.poll.toNat)
  | .rdLow => s.cfg.tRdsample.toNat + s.cfg.tRdrec.toNat + longestSlot * (7 - s.bitcnt.toNat)
  | .rdWait => s.cfg.tRdrec.toNat + longestSlot * (7 - s.bitcnt.toNat)
  | .w1Low => s.cfg.tW1rec.toNat + longestSlot * (7 - s.bitcnt.toNat)
  | .w0Low => s.cfg.tW0rec.toNat + longestSlot * (7 - s.bitcnt.toNat)
  | .rdRec | .w1Rec | .w0Rec => longestSlot * (7 - s.bitcnt.toNat)

/-- At most the ticks that the command in progress still lasts. Before its sample is taken, an iteration of the presence
poll is not yet counted in `poll`, so its ticks stand in `ticksAfterPhase`. -/
def State.ticksLeft (s : State) : Nat :=
  (if s.fsm = .rstPoll ∧ s.entry = true then 0 else s.tcnt.toNat) + s.ticksAfterPhase

theorem ticksLeft_sampled {s : State} (h : s.entry = false) : s.ticksLeft = s.tcnt.toNat + s.ticksAfterPhase := by
  simp [State.ticksLeft, h]

theorem ticksLeft_not_poll {s : State} (h : s.fsm ≠ .rstPoll) : s.ticksLeft = s.tcnt.toNat + s.ticksAfterPhase := by
  simp [State.ticksLeft, h]

theorem ticksLeft_complete (e : Err) {s : State} (h : s.tcnt = 0#9) : (complete e s).ticksLeft = 0 := by
  rw [ticksLeft_sampled (complete_entry e s), complete_tcnt, h]
  rfl

/-- R5 leaves the implementation no choice about the presence poll. -/
theorem pollTiming {c : Config.Timing} (h : c.Legal) :
    c.tPoll.toNat = 5 ∧ c.nPoll.toNat = 50 ∧ c.tRstguard.toNat = 5 := by
  simp only [Config.Timing.Legal, Config.inRange] at h
  omega

/-- R91's bound over the ranges of R5 (R181). -/
theorem ticksLeft_le {s : State} (h : s.Sound) : s.ticksLeft ≤ longestCommand := by
  have hphase : s.ticksLeft ≤ s.tcnt.toNat + s.ticksAfterPhase := by
    unfold State.ticksLeft
    split <;> omega
  refine hphase.trans ?_
  by_cases hf : s.fsm = .idle
  · obtain ⟨_, hidle, _, _⟩ := h.control
    obtain ⟨_, hzero⟩ := hidle hf
    simp [State.ticksAfterPhase, hf, hzero]
  · have hcount := (h.count hf).2
    obtain ⟨hpoll, hbudget, _⟩ := pollTiming h.legal
    have hl := h.legal
    simp only [Config.Timing.Legal, Config.inRange] at hl
    cases hp : s.fsm <;>
      simp only [hp, Phase.duration, State.ticksAfterPhase, longestSlot, longestCommand, hpoll, hbudget]
        at hf hcount ⊢ <;>
      omega

theorem ticksLeft_pos {s : State} (h : s.Sound) (hrun : s.fsm ≠ .idle) : 1 ≤ s.ticksLeft := by
  by_cases hsample : s.fsm = .rstPoll ∧ s.entry = true
  · obtain ⟨hf, he⟩ := hsample
    obtain ⟨_, _, _, hbudget, _⟩ := h.progress
    have hsamples : s.poll.toNat < s.cfg.nPoll.toNat := hbudget hf he
    obtain ⟨hpoll, _, _⟩ := pollTiming h.legal
    simp only [State.ticksLeft, State.ticksAfterPhase, hf, he, hpoll]
    omega
  · rw [State.ticksLeft, if_neg hsample]
    exact (h.count hrun).1.trans (Nat.le_add_right _ _)

/-! ## A tick lowers it -/

theorem ticksLeft_startSlot {s : State} (hl : s.cfg.Legal) (hn : s.bitcnt.toNat < 8) :
    (startSlot s).ticksLeft ≤ longestSlot * (8 - s.bitcnt.toNat) := by
  simp only [Config.Timing.Legal, Config.inRange] at hl
  obtain ⟨_, h⟩ | ⟨_, _, h⟩ | ⟨_, _, h⟩ := startSlot_cases s <;>
    rw [h, ticksLeft_not_poll (by simp)] <;>
    simp only [State.ticksAfterPhase, enter_fsm, enter_tcnt, enter_cfg, enter_bitcnt, Phase.duration, longestSlot] <;>
    omega

theorem ticksLeft_endOfSlot {s : State} (hl : s.cfg.Legal) (ht : s.tcnt = 0#9) (hn : s.bitcnt.toNat < 8) :
    (endOfSlot s).ticksLeft ≤ longestSlot * (7 - s.bitcnt.toNat) := by
  obtain ⟨_, h⟩ | ⟨_, t, rfl, ⟨_, h⟩ | ⟨hmore, h⟩⟩ := endOfSlot_cases s <;> rw [h]
  · simp [ticksLeft_complete .ok ht]
  · rw [ticksLeft_complete .ok (by exact ht)]
    exact Nat.zero_le _
  · have hnext : (s.bitcnt + 1#4).toNat = s.bitcnt.toNat + 1 := by bv_omega
    have hlt : (s.bitcnt + 1#4).toNat < 8 := by
      have : s.bitcnt + 1#4 ≠ 8#4 := hmore
      bv_omega
    refine (ticksLeft_startSlot (by exact hl) hlt).trans_eq ?_
    show longestSlot * (8 - (s.bitcnt + 1#4).toNat) = _
    rw [hnext, Nat.add_comm, ← Nat.sub_sub]

/-- The next phase lasts, with all that follows it, no longer than what was to follow the one that is over. -/
theorem ticksLeft_advance {s : State} (hl : s.cfg.Legal) (ht : s.tcnt = 0#9)
    (hn : s.fsm.ofRead = true ∨ s.fsm.ofWrite = true → s.bitcnt.toNat < 8) :
    (advance s).ticksLeft ≤ s.ticksAfterPhase := by
  have hdone (e : Err) : (complete e s).ticksLeft ≤ s.ticksAfterPhase :=
    (ticksLeft_complete e ht).trans_le (Nat.zero_le _)
  have hnext {p : Phase} (hp : p ≠ .rstPoll)
      (h : (p.duration s.cfg).toNat + (enter p s).ticksAfterPhase = s.ticksAfterPhase) :
      (enter p s).ticksLeft ≤ s.ticksAfterPhase := (ticksLeft_not_poll hp).trans_le h.le
  have hpolls : (enter .rstPoll s).ticksLeft = s.cfg.tPoll.toNat * (s.cfg.nPoll.toNat - s.poll.toNat) := by
    simp [State.ticksLeft, State.ticksAfterPhase, Phase.samplesOnEntry]
  rcases advance_cases s with ⟨_, h⟩ | ⟨hf, h⟩ | ⟨hf, h⟩ | ⟨_, _, h⟩ | ⟨hf, _, h⟩ | ⟨_, h⟩ | ⟨hf, h⟩ | ⟨hf, h⟩ |
    ⟨hf, h⟩ | ⟨hf, h⟩ | ⟨hf, h⟩ <;> rw [h]
  · simp [State.ticksLeft, ht]
  · exact hnext nofun (by simp [State.ticksAfterPhase, hf, Phase.duration])
  · rw [hpolls, State.ticksAfterPhase, hf]
    exact Nat.mul_le_mul_left _ (Nat.sub_le _ _)
  · exact hdone .noPresence
  · rw [hpolls, State.ticksAfterPhase, hf]
  · exact hdone .ok
  · exact hnext nofun (by simp [State.ticksAfterPhase, hf, Phase.duration, Nat.add_assoc])
  · exact hnext nofun (by simp [State.ticksAfterPhase, hf, Phase.duration])
  · exact hnext nofun (by simp [State.ticksAfterPhase, hf, Phase.duration])
  · exact hnext nofun (by simp [State.ticksAfterPhase, hf, Phase.duration])
  · have hslot : s.bitcnt.toNat < 8 := hn (by obtain hf | hf | hf := hf <;> simp [hf, Phase.ofRead, Phase.ofWrite])
    refine (ticksLeft_endOfSlot hl ht hslot).trans_eq ?_
    obtain hf | hf | hf := hf <;> rw [State.ticksAfterPhase, hf]

theorem ticksLeft_countDown {s : State} (h : s.Sound) (hrun : s.fsm ≠ .idle) (he : s.entry = false) :
    (countDown s).ticksLeft < s.ticksLeft := by
  obtain ⟨hpos, _⟩ := h.count hrun
  obtain ⟨_, _, _, _, _, hslots⟩ := h.progress
  rw [ticksLeft_sampled he]
  by_cases hend : s.tcnt - 1#9 = 0#9
  · rw [countDown_ends hend]
    calc (advance { s with tcnt := 0#9 }).ticksLeft
        ≤ s.ticksAfterPhase := ticksLeft_advance (s := { s with tcnt := 0#9 }) h.legal rfl hslots
      _ < s.tcnt.toNat + s.ticksAfterPhase := Nat.lt_add_of_pos_left hpos
  · rw [countDown_counts hend, ticksLeft_sampled (by exact he)]
    have hless : (s.tcnt - 1#9).toNat < s.tcnt.toNat := by bv_omega
    exact Nat.add_lt_add_right hless s.ticksAfterPhase

/-- A sample counts its iteration as used up, or turns to the guard, which is no longer than one. -/
theorem ticksLeft_presenceSample {s : State} (h : s.Sound) (he : s.entry = false) (hf : s.fsm = .rstPoll)
    (hleft : s.poll.toNat < s.cfg.nPoll.toNat) (level : Bool) :
    (presenceSample level s).ticksLeft ≤ s.cfg.tPoll.toNat * (s.cfg.nPoll.toNat - s.poll.toNat) := by
  obtain ⟨hpoll, hbudget, hguard⟩ := pollTiming h.legal
  have hcount : s.tcnt.toNat ≤ s.cfg.tPoll.toNat := by simpa [hf, Phase.duration] using (h.count (by simp [hf])).2
  have hused : (s.poll + 1#6).toNat = s.poll.toNat + 1 := by bv_omega
  obtain ⟨_, heq⟩ | ⟨_, _, heq⟩ | ⟨_, _, heq⟩ := presenceSample_cases level s <;>
    rw [heq, ticksLeft_sampled (by exact he)] <;>
    simp only [State.ticksAfterPhase, hf, hused, hpoll, hguard] at hcount ⊢ <;>
    omega

theorem ticksLeft_sampleOnEntry {s : State} (h : s.Sound) (level : Bool) :
    (sampleOnEntry level s).ticksLeft ≤ s.ticksLeft := by
  have hcleared (hf : s.fsm ≠ .rstPoll) (sh0 : Byte) :
      State.ticksLeft { s with entry := false, sh := sh0 } = s.ticksLeft := by
    rw [ticksLeft_sampled rfl, ticksLeft_not_poll hf]
    rfl
  obtain ⟨_, heq⟩ | ⟨_, hf, heq⟩ | ⟨he, hf, heq⟩ | ⟨_, hp, heq⟩ := sampleOnEntry_cases level s <;> rw [heq]
  · exact (hcleared (by simp [hf]) _).le
  · obtain ⟨_, _, _, hbudget, _⟩ := h.progress
    refine (ticksLeft_presenceSample (sound_entry_cleared h) rfl hf (hbudget hf he) level).trans_eq ?_
    simp [State.ticksLeft, State.ticksAfterPhase, hf, he]
  · exact (hcleared (fun hf => by simp [hf, Phase.samplesOnEntry] at hp) s.sh).le

theorem ticksLeft_tick {s : State} (h : s.Sound) (hrun : s.fsm ≠ .idle) (dev : Bool) :
    (tick dev s).ticksLeft < s.ticksLeft := by
  rw [tick_busy hrun]
  have hcounts := ticksLeft_countDown (sound_sampleOnEntry h (line dev s.dqOe)) (sampleOnEntry_running hrun _)
    (sampleOnEntry_entry _ s)
  exact hcounts.trans_le (ticksLeft_sampleOnEntry h _)

theorem not_busy_of_ticksLeft_le (devs : List Bool) {s : State} (h : s.Sound) (hlen : s.ticksLeft ≤ devs.length) :
    (ticks devs s).busy = false := by
  induction devs generalizing s with
  | nil =>
    by_contra hb
    exact absurd ((ticksLeft_pos h (mt h.control.1.mpr hb)).trans hlen) (by simp)
  | cons dev devs ih =>
    by_cases hf : s.fsm = .idle
    · rw [ticks_idle hf]
      exact h.control.1.mpr hf
    · exact ih (sound_tick h dev) (Nat.le_of_lt_succ ((ticksLeft_tick h hf dev).trans_le hlen))

/-- Settles O44: the invariant bounds the ticks left by 770, and every tick of a running command lowers the bound. -/
theorem timedCommandsTerminate : Obligations.TimedCommandsTerminate := by
  intro s devs hinv hlen
  obtain ⟨hs, _⟩ := (inv_iff s).mp hinv
  exact not_busy_of_ticksLeft_le devs hs ((ticksLeft_le hs).trans hlen)

end Sys2Proof.Machine
end

section
/-! SUPPORT. The byte commands RDBYTE, WRBYTE and SENDCMD from acceptance to completion (`41_bus_byte_ops.md` R110 to
R112): eight slots with no tick between them. -/

namespace Sys2Proof.Machine

/-! ## SENDCMD -/

theorem decode_ne_sendcmd (w : CmdWord) (v : Byte) : decode w ≠ .ok (.sendcmd v) := by
  intro h
  obtain ⟨_, _, hcore⟩ := decode_eq_ok_iff.mp h
  exact Instr.noConfusion hcore

/-- Settles O5: SENDCMD has WRBYTE's opcode and operand and WRBYTE's effect, and the decoder answers core commands
only. -/
theorem sendcmdIsWrbyte : Obligations.SendcmdIsWrbyte :=
  ⟨fun v => ⟨rfl, encode_wrbyte v⟩, fun _ _ => rfl, decode_ne_sendcmd⟩

/-! ## A run cut into slots -/

/-- The tick on which slot `i` starts, when slot `j` lasts `len j` ticks. -/
def slotStart (len : Nat → Nat) (i : Nat) : Nat := ((List.range i).map len).sum

/-- The environment bits of slot `i`. -/
def slotBits (len : Nat → Nat) (devs : List Bool) (i : Nat) : List Bool := (devs.drop (slotStart len i)).take (len i)

theorem slotStart_succ (len : Nat → Nat) (i : Nat) : slotStart len (i + 1) = slotStart len i + len i := by
  simp [slotStart, List.range_succ]

theorem slotStart_mono (len : Nat → Nat) : Monotone (slotStart len) :=
  monotone_nat_of_le_succ fun i => slotStart_succ len i ▸ Nat.le_add_right _ _

theorem slotStart_const (n i : Nat) : slotStart (fun _ => n) i = i * n := by simp [slotStart]

theorem flatten_slotBits (len : Nat → Nat) (devs : List Bool) (n : Nat) :
    ((List.range n).map (slotBits len devs)).flatten = devs.take (slotStart len n) := by
  induction n with
  | zero => rfl
  | succ n ih => simp [List.range_succ, ih, slotStart_succ, List.take_add, slotBits]

theorem length_slotBits {len : Nat → Nat} {devs : List Bool} {n i : Nat} (h : devs.length = slotStart len n)
    (hi : i < n) : (slotBits len devs i).length = len i := by
  have hend : slotStart len i + len i ≤ devs.length := by
    rw [h, ← slotStart_succ]
    exact slotStart_mono len hi
  rw [slotBits, List.length_take, List.length_drop]
  omega

theorem getD_slotBits {len : Nat → Nat} {i k : Nat} (hk : k < len i) (devs : List Bool) :
    (slotBits len devs i).getD k true = devs.getD (slotStart len i + k) true := by
  simp [slotBits, List.getD_eq_getElem?_getD, hk]

/-- Slots that each lead to the next run one after the other. -/
theorem runs_slots {stage : Nat → State} {devs trace : Nat → List Bool} {n : Nat}
    (hrun : ∀ i, i < n → Runs (devs i) (stage i) (trace i) (stage (i + 1)))
    (hsame : ∀ i, i < n → SameResults (stage 0) (stage i)) :
    Runs ((List.range n).map devs).flatten (stage 0) ((List.range n).map trace).flatten (stage n) := by
  induction n with
  | zero => exact .nil _
  | succ n ih =>
    have hbefore := ih (fun i hi => hrun i (by omega)) (fun i hi => hsame i (by omega))
    have hall := hbefore.append (hsame n n.lt_succ_self) (hrun n n.lt_succ_self)
    simpa [List.range_succ] using hall

/-! ## Between two slots of a byte command -/

/-- What the end of a slot of a byte command goes on to, its registers written: the end of the command after eight
slots, the next slot before that (R81). -/
def nextSlot (s : State) : State := if s.bitcnt = 8#4 then complete .ok s else startSlot s

/-- The registers of a byte command with `i` slots behind it and `v` in the shift register. -/
def byteRegisters (op : BitVec 4) (i : Nat) (v : Byte) (s : State) : State :=
  { s with opc := op, busy := true, tcnt := 0#9, bitcnt := BitVec.ofNat 4 i, sh := v }

/-- A byte command with `i` slots behind it: at the start of the next slot, or complete when there were eight. -/
def slotsDone (op : BitVec 4) (i : Nat) (v : Byte) (s : State) : State := nextSlot (byteRegisters op i v s)

theorem slotsDone_within {i : Nat} (hi : i < 8) (op : BitVec 4) (v : Byte) (s : State) :
    slotsDone op i v s = startSlot (byteRegisters op i v s) := by
  have hmore : BitVec.ofNat 4 i ≠ 8#4 := by
    intro hall
    have hvalue := congrArg BitVec.toNat hall
    simp only [BitVec.toNat_ofNat] at hvalue
    omega
  exact if_neg hmore

theorem slotsDone_read {i : Nat} (hi : i < 8) (v : Byte) (s : State) :
    slotsDone 4#4 i v s = enter .rdLow (byteRegisters 4#4 i v s) := by
  rw [slotsDone_within hi]
  rfl

theorem startSlot_wrbyte {s : State} (h : s.opc = 5#4) : startSlot s = enter (writeLow (lowBit s.sh)) s := by
  rw [startSlot, if_neg (by rw [h]; decide)]
  cases lowBit s.sh <;> rfl

theorem slotsDone_write {i : Nat} (hi : i < 8) (v : Byte) (s : State) :
    slotsDone 5#4 i v s = enter (writeLow (lowBit v)) (byteRegisters 5#4 i v s) := by
  rw [slotsDone_within hi]
  exact startSlot_wrbyte rfl

theorem slotsDone_busy {i : Nat} (hi : i < 8) (op : BitVec 4) (v : Byte) (s : State) :
    (slotsDone op i v s).busy = true := by
  obtain ⟨p, hp⟩ := startSlot_eq_enter (byteRegisters op i v s)
  rw [slotsDone_within hi, hp]
  rfl

theorem slotsDone_same {i j : Nat} (hi : i < 8) (hj : j < 8) (op : BitVec 4) (v w : Byte) (s : State) :
    SameResults (slotsDone op i v s) (slotsDone op j w s) := by
  obtain ⟨p, hp⟩ := startSlot_eq_enter (byteRegisters op i v s)
  obtain ⟨q, hq⟩ := startSlot_eq_enter (byteRegisters op j w s)
  rw [slotsDone_within hi, slotsDone_within hj, hp, hq]
  exact ⟨rfl, rfl, rfl, rfl, rfl, rfl⟩

theorem byteRegisters_succ (op : BitVec 4) (i : Nat) (v w : Byte) (s : State) :
    { byteRegisters op i v s with bitcnt := BitVec.ofNat 4 i + 1#4, sh := w } = byteRegisters op (i + 1) w s := by
  rw [← BitVec.ofNat_add]
  rfl

/-- A slot ends with the start of the next or the end of the command, whatever its last phase was (R81). -/
theorem endOfSlot_byteRegisters {op : BitVec 4} (h : op = 4#4 ∨ op = 5#4) (p : Phase) (drive entry : Bool) (i : Nat)
    (v : Byte) (s : State) :
    endOfSlot { byteRegisters op i v s with fsm := p, dqOe := drive, entry := entry } =
      slotsDone op (i + 1) (if op = 5#4 then shiftOut v else v) s := by
  have hbyte : ¬(op = 2#4 ∨ op = 3#4) := by obtain rfl | rfl := h <;> decide
  rw [slotsDone, ← byteRegisters_succ op i v]
  exact if_neg hbyte

/-! ## RDBYTE -/

/-- The sample of a read slot (R85). -/
def slotSample (c : Config.Timing) (devs : List Bool) : Bool := devs.getD (c.tRdlow.toNat + c.tRdsample.toNat) true

/-- In a run of read slots the sample of slot `i` stands at R110's tick. -/
theorem slotSample_slotBits {c : Config.Timing} (hc : c.Legal) (devs : List Bool) (i : Nat) :
    slotSample c (slotBits (fun _ => readSlotLength c) devs i) =
      devs.getD (i * readSlotLength c + c.tRdlow.toNat + c.tRdsample.toNat) true := by
  obtain ⟨hrec, _⟩ := Laws.Timing.duration_bounds hc (p := .rdRec) nofun
  have hin : c.tRdlow.toNat + c.tRdsample.toNat < readSlotLength c := Nat.lt_add_of_pos_right hrec
  rw [slotSample, getD_slotBits (len := fun _ => readSlotLength c) hin, slotStart_const, Nat.add_assoc]

theorem runs_readSlot {s : State} (hc : s.cfg.Legal) {i : Nat} (hi : i < 8) (v : Byte) {devs : List Bool}
    (hlen : devs.length = readSlotLength s.cfg) :
    Runs devs (slotsDone 4#4 i v s) (readSlotTrace s.cfg)
      (slotsDone 4#4 (i + 1) (shiftIn (slotSample s.cfg devs) v) s) := by
  obtain ⟨hend, hline, hquiet⟩ := readSlot_run (byteRegisters 4#4 i v s) devs hc hlen
  rw [← slotsDone_read hi] at hend hline hquiet
  refine ⟨?_, hline, hquiet⟩
  rw [hend]
  exact endOfSlot_byteRegisters (.inl rfl) _ _ _ i _ s

/-- The shift register after `n` samples (R28, R110). -/
def samplesIn (level : Nat → Bool) : Nat → Byte
  | 0 => 0#8
  | n + 1 => shiftIn (level n) (samplesIn level n)

/-- The samples stand at the top of the register, the latest in bit 7. -/
theorem samplesIn_bit (level : Nat → Bool) {n j : Nat} (hj : j < 8) (h : 8 ≤ n + j) (hn : n ≤ 8) :
    (samplesIn level n).getLsbD j = level (n + j - 8) := by
  induction n generalizing j with
  | zero => omega
  | succ n ih =>
    rw [samplesIn, shiftIn_bit _ _ hj]
    split
    · congr 1; omega
    · rw [ih (by omega) (by omega) (by omega)]
      congr 1; omega

theorem runs_rdbyte {s : State} (hc : s.cfg.Legal) {devs : Nat → List Bool}
    (hlen : ∀ i, i < 8 → (devs i).length = readSlotLength s.cfg) :
    Runs ((List.range 8).map devs).flatten (slotsDone 4#4 0 0#8 s) (List.replicate 8 (readSlotTrace s.cfg)).flatten
      (slotsDone 4#4 8 (samplesIn (fun i => slotSample s.cfg (devs i)) 8) s) :=
  runs_slots (stage := fun i => slotsDone 4#4 i (samplesIn (fun i => slotSample s.cfg (devs i)) i) s)
    (trace := fun _ => readSlotTrace s.cfg) (fun i hi => runs_readSlot hc hi _ (hlen i hi))
    (fun _ hi => slotsDone_same (by decide) hi _ _ _ s)

theorem slotsDone_rdbyte (v : Byte) (s : State) :
    slotsDone 4#4 8 v s =
      { s with busy := false, err := .ok, fsm := .idle, tcnt := 0#9, entry := false, dqOe := false, opc := 4#4,
               bitcnt := 8#4, sh := v, rxdata := v } := rfl

theorem exec_rdbyte_unarmed {s : State} (hr : s.cmdReady = true) (hu : s.rstok = false) :
    exec .rdbyte s = .next { s with err := .notArmed } := by
  rw [exec_ready hr, issued, whenArmed_unarmed _ hu, raise]

theorem exec_rdbyte_slots {s : State} (hr : s.cmdReady = true) (ha : s.rstok = true) :
    exec .rdbyte s = .next (slotsDone 4#4 0 0#8 s) := exec_rdbyte_armed hr ha

/-- Settles O37: eight read slots, whose samples fill the shift register bit by bit. -/
theorem rdbyteWholeRun : Obligations.RdbyteWholeRun := by
  refine ⟨rfl, fun s hr hu => exec_rdbyte_unarmed hr hu, fun s devs hr ha hc hlen => ?_⟩
  have hlen' : devs.length = slotStart (fun _ => readSlotLength s.cfg) 8 := by rw [slotStart_const, hlen]
  obtain ⟨hend, hline, hquiet⟩ := runs_rdbyte hc (fun _ => length_slotBits hlen')
  rw [flatten_slotBits, ← hlen', List.take_length] at hend hline hquiet
  rw [slotsDone_rdbyte] at hend
  refine ⟨_, _, exec_rdbyte_slots hr ha, fun i hi => ?_, hline, fun k hk => ?_, hend⟩
  · rw [samplesIn_bit _ hi (by omega) le_rfl, Nat.add_sub_cancel_left, slotSample_slotBits hc]
  · obtain ⟨hbusy, hrxdata, _, _⟩ := hquiet k hk
    exact ⟨hbusy, hrxdata⟩

/-! ## WRBYTE -/

theorem lowBit_ushiftRight (v : Byte) (i : Nat) : lowBit (v >>> i) = v.getLsbD i := by simp [lowBit]

theorem runs_writeSlot {s : State} (hc : s.cfg.Legal) {i : Nat} (hi : i < 8) (v : Byte) {devs : List Bool}
    (hlen : devs.length = writeSlotLength s.cfg (lowBit v)) :
    Runs devs (slotsDone 5#4 i v s) (writeSlotTrace s.cfg (lowBit v)) (slotsDone 5#4 (i + 1) (shiftOut v) s) := by
  obtain ⟨hend, hline, hquiet⟩ := writeSlot_run (byteRegisters 5#4 i v s) (lowBit v) devs hc hlen
  rw [← slotsDone_write hi] at hend hline hquiet
  refine ⟨?_, hline, hquiet⟩
  rw [hend]
  exact endOfSlot_byteRegisters (.inr rfl) _ _ _ i _ s

theorem runs_wrbyte {s : State} (hc : s.cfg.Legal) {v : Byte} {devs : Nat → List Bool}
    (hlen : ∀ i, i < 8 → (devs i).length = writeSlotLength s.cfg (v.getLsbD i)) :
    Runs ((List.range 8).map devs).flatten (slotsDone 5#4 0 v s)
      ((List.range 8).map (fun i => writeSlotTrace s.cfg (v.getLsbD i))).flatten (slotsDone 5#4 8 0#8 s) := by
  have hslot (i : Nat) (hi : i < 8) : Runs (devs i) (slotsDone 5#4 i (v >>> i) s)
      (writeSlotTrace s.cfg (v.getLsbD i)) (slotsDone 5#4 (i + 1) (v >>> (i + 1)) s) := by
    have hbit := lowBit_ushiftRight v i
    rw [← hbit, BitVec.shiftRight_add]
    exact runs_writeSlot hc hi _ (hbit ▸ hlen i hi)
  have hall := runs_slots (stage := fun i => slotsDone 5#4 i (v >>> i) s) hslot
    (fun _ hi => slotsDone_same (by decide) hi _ _ _ s)
  rwa [BitVec.ushiftRight_zero, BitVec.ushiftRight_eq_zero le_rfl] at hall

theorem slotsDone_wrbyte (v : Byte) (s : State) :
    slotsDone 5#4 8 v s =
      { s with busy := false, err := .ok, fsm := .idle, tcnt := 0#9, entry := false, dqOe := false, opc := 5#4,
               bitcnt := 8#4, sh := v } := rfl

theorem exec_wrbyte_unarmed {s : State} (hr : s.cmdReady = true) (hu : s.rstok = false) (v : Byte) :
    exec (.wrbyte v) s = .next { s with err := .notArmed } := by
  rw [exec_ready hr, issued, whenArmed_unarmed _ hu, raise]

theorem exec_wrbyte_slots {s : State} (hr : s.cmdReady = true) (ha : s.rstok = true) (v : Byte) :
    exec (.wrbyte v) s = .next (slotsDone 5#4 0 v s) := by
  rw [exec_wrbyte_armed hr ha, slotsDone_write (by decide)]
  cases lowBit v <;> rfl

/-- Settles O38: eight write slots, each sending the lowest bit of what is left in the shift register. -/
theorem wrbyteWholeRun : Obligations.WrbyteWholeRun := by
  refine ⟨fun v => ⟨encode_wrbyte v, encode_wrbyte v ▸ decode_encode (i := .wrbyte v) rfl⟩,
    fun s v hr hu => exec_wrbyte_unarmed hr hu v, fun s v devs hr ha hc hlen => ?_⟩
  have hlen' : devs.length = slotStart (fun i => writeSlotLength s.cfg (v.getLsbD i)) 8 := hlen
  obtain ⟨hend, hline, hquiet⟩ := runs_wrbyte hc (fun _ => length_slotBits hlen')
  rw [flatten_slotBits, ← hlen', List.take_length] at hend hline hquiet
  refine ⟨_, exec_wrbyte_slots hr ha v, hline, fun k hk => ?_, hend⟩
  obtain ⟨hbusy, _, _, _⟩ := hquiet k hk
  exact hbusy.trans (slotsDone_busy (by decide) _ _ _)

end Sys2Proof.Machine
end

section
/-! SUPPORT. A byte command beside the eight bit commands of its bits (`41_bus_byte_ops.md` R113). -/

namespace Sys2Proof.Machine

/-! ## Running one command and several -/

theorem runTrace_of_exec {i : Instr} {s t : State} (h : exec i s = .next t) (devs : List Bool) :
    runTrace i devs s = driveTrace devs t := by
  rw [runTrace, h]

theorem runCommand_of_exec {i : Instr} {s t : State} (h : exec i s = .next t) (devs : List Bool) :
    runCommand i devs s = ticks devs t := by
  rw [runCommand, h]

theorem run_of_runs {i : Instr} {s t u : State} {devs trace : List Bool} (h : exec i s = .next t)
    (hrun : Runs devs t trace u) : runTrace i devs s = trace ∧ runCommand i devs s = u :=
  ⟨(runTrace_of_exec h devs).trans hrun.line, (runCommand_of_exec h devs).trans hrun.state⟩

theorem runCommands_append (cmds₁ cmds₂ : List (Instr × List Bool)) (s : State) :
    runCommands (cmds₁ ++ cmds₂) s = runCommands cmds₂ (runCommands cmds₁ s) := List.foldl_append

theorem runTraces_append (cmds₁ cmds₂ : List (Instr × List Bool)) (s : State) :
    runTraces (cmds₁ ++ cmds₂) s = runTraces cmds₁ s ++ runTraces cmds₂ (runCommands cmds₁ s) := by
  induction cmds₁ generalizing s with
  | nil => rfl
  | cons c cmds ih =>
    rw [List.cons_append, runTraces, runTraces, ih, List.append_assoc]
    rfl

section Row
variable {cmd : Nat → Instr} {devs : Nat → List Bool}

theorem runCommands_range_succ (n : Nat) (s : State) :
    runCommands ((List.range (n + 1)).map (fun i => (cmd i, devs i))) s =
      runCommand (cmd n) (devs n) (runCommands ((List.range n).map (fun i => (cmd i, devs i))) s) := by
  rw [List.range_succ, List.map_append, runCommands_append]
  rfl

/-- What every command of a row finds and leaves holds after all of them, and their lines stand one after the other. -/
theorem runTraces_range {P : State → Prop} {trace : Nat → List Bool} {n : Nat}
    (hcmd : ∀ i, i < n → ∀ t, P t → runTrace (cmd i) (devs i) t = trace i ∧ P (runCommand (cmd i) (devs i) t))
    {s : State} (hs : P s) :
    runTraces ((List.range n).map (fun i => (cmd i, devs i))) s = ((List.range n).map trace).flatten ∧
      P (runCommands ((List.range n).map (fun i => (cmd i, devs i))) s) := by
  induction n with
  | zero => exact ⟨rfl, hs⟩
  | succ n ih =>
    obtain ⟨hbefore, hafter⟩ := ih (fun i hi => hcmd i (by omega))
    obtain ⟨hlast, hdone⟩ := hcmd n n.lt_succ_self _ hafter
    rw [runCommands_range_succ]
    refine ⟨?_, hdone⟩
    simp [List.range_succ, runTraces_append, hbefore, runTraces, hlast]

end Row

/-! ## The block between two bit commands -/

/-- Ready for the next bit or byte command, with the parameters `c`. -/
structure AwaitsSlot (c : Config.Timing) (s : State) : Prop where
  ready : s.cmdReady = true
  armed : s.rstok = true
  cfg : s.cfg = c

/-- A bit or byte command accepted in `s` is complete in `t` (R84). -/
structure Completed (s t : State) : Prop where
  busy : t.busy = false
  err : t.err = .ok
  rstok : t.rstok = s.rstok
  crc : t.crc = s.crc
  rstN : t.rstN = s.rstN
  cfg : t.cfg = s.cfg

/-- `STATUS` after a bit or byte command: armed, `OK`, not busy (R11). -/
theorem Completed.status {s t : State} (h : Completed s t) (ha : s.rstok = true) : t.status = 0x02#8 := by
  rw [State.status, h.busy, h.err, h.rstok, ha]
  rfl

/-- The next command can follow at once. -/
theorem Completed.awaitsSlot {c : Config.Timing} {s t : State} (h : Completed s t) (hs : AwaitsSlot c s) :
    AwaitsSlot c t := by
  obtain ⟨hreleased, _⟩ := (cmdReady_iff s).mp hs.ready
  exact ⟨(cmdReady_iff t).mpr ⟨h.rstN.trans hreleased, h.busy⟩, h.rstok.trans hs.armed, h.cfg.trans hs.cfg⟩

theorem sr_eq_of_status {s t : State} (hstatus : s.status = t.status) (hrxdata : s.rxdata = t.rxdata)
    (hcrc : s.crc = t.crc) (a : BitVec 2) : s.sr a = t.sr a := by
  rw [State.sr, State.sr, hstatus, hrxdata, hcrc]

/-! ## WRBYTE -/

section Write
variable {c : Config.Timing} {s : State} (h : AwaitsSlot c s) (hc : c.Legal) {b : Bool} {devs : List Bool}
  (hlen : devs.length = writeSlotLength c b)
include h hc hlen

/-- WRBIT over its slot (R89). -/
theorem wrbit_run :
    runTrace (.wrbit ((BitVec.ofBool b).setWidth 8)) devs s = writeSlotTrace c b ∧
    runCommand (.wrbit ((BitVec.ofBool b).setWidth 8)) devs s =
      { s with busy := false, err := .ok, fsm := .idle, tcnt := 0#9, entry := false, dqOe := false, opc := 3#4,
               bitcnt := 0#4, sh := (BitVec.ofBool b).setWidth 8 } := by
  obtain ⟨hr, ha, rfl⟩ := h
  obtain ⟨_, _, _, _, hrun⟩ := wrbitWholeRun
  obtain ⟨t, hexec, hline, _, hend⟩ := hrun s b devs hr ha hc hlen
  exact ⟨(runTrace_of_exec hexec devs).trans hline, (runCommand_of_exec hexec devs).trans hend⟩

theorem completed_wrbit : Completed s (runCommand (.wrbit ((BitVec.ofBool b).setWidth 8)) devs s) := by
  obtain ⟨_, hend⟩ := wrbit_run h hc hlen
  rw [hend]
  exact ⟨rfl, rfl, rfl, rfl, rfl, rfl⟩

end Write

/-- Between the WRBITs of a byte the block awaits the next slot, with `RXDATA` and `CRC` as they were. -/
def BetweenWrbits (s t : State) : Prop := AwaitsSlot s.cfg t ∧ t.rxdata = s.rxdata ∧ t.crc = s.crc

/-- Settles O41: both make the write slots of the byte's bits one after the other, and both end armed with `OK` and
leave `RXDATA` and `CRC`. -/
theorem wrbyteIsEightWrbits : Obligations.WrbyteIsEightWrbits := by
  intro s v devs hr ha hc hlen bits all
  have hstart : BetweenWrbits s s := ⟨⟨hr, ha, rfl⟩, rfl, rfl⟩
  have hbit (i : Nat) (hi : i < 8) (t : State) (ht : BetweenWrbits s t) :
      runTrace (.wrbit ((BitVec.ofBool (v.getLsbD i)).setWidth 8)) (devs i) t = writeSlotTrace s.cfg (v.getLsbD i) ∧
      BetweenWrbits s (runCommand (.wrbit ((BitVec.ofBool (v.getLsbD i)).setWidth 8)) (devs i) t) := by
    obtain ⟨hawaits, hrxdata, hcrc⟩ := ht
    obtain ⟨hline, hend⟩ := wrbit_run hawaits hc (hlen i hi)
    have hdone := completed_wrbit hawaits hc (hlen i hi)
    exact ⟨hline, hdone.awaitsSlot hawaits, hend ▸ hrxdata, hdone.crc.trans hcrc⟩
  obtain ⟨hline, hend⟩ := run_of_runs (exec_wrbyte_slots hr ha v) (runs_wrbyte hc hlen)
  obtain ⟨hlines, _, hrxdata, hcrc⟩ := runTraces_range hbit hstart
  have hbyte : Completed s (runCommand (.wrbyte v) all s) := hend ▸ ⟨rfl, rfl, rfl, rfl, rfl, rfl⟩
  have hbits : (runCommands bits s).status = 0x02#8 := by
    obtain ⟨_, hawaits, _⟩ := runTraces_range (n := 7) (fun i hi => hbit i (by omega)) hstart
    have hlast : runCommands bits s = _ := runCommands_range_succ 7 s
    rw [hlast]
    exact (completed_wrbit hawaits hc (hlen 7 (by decide))).status hawaits.armed
  refine ⟨hline.trans hlines.symm, sr_eq_of_status ((hbyte.status ha).trans hbits.symm) ?_ ?_⟩
  · rw [hend, hrxdata]
    rfl
  · exact hbyte.crc.trans hcrc.symm

/-! ## RDBYTE -/

section Read
variable {c : Config.Timing} {s : State} (h : AwaitsSlot c s) (hc : c.Legal) {devs : List Bool}
  (hlen : devs.length = readSlotLength c)
include h hc hlen

/-- RDBIT over its slot (R88). -/
theorem rdbit_run :
    runTrace .rdbit devs s = readSlotTrace c ∧
    runCommand .rdbit devs s =
      { s with busy := false, err := .ok, fsm := .idle, tcnt := 0#9, entry := false, dqOe := false, opc := 2#4,
               bitcnt := 0#4, sh := shiftIn (slotSample c devs) 0,
               rxdata := if slotSample c devs then 0x01#8 else 0x00#8 } := by
  obtain ⟨hr, ha, rfl⟩ := h
  obtain ⟨_, _, hrun⟩ := rdbitWholeRun
  obtain ⟨t, hexec, hline, _, hend⟩ := hrun s devs hr ha hc hlen
  exact ⟨(runTrace_of_exec hexec devs).trans hline, (runCommand_of_exec hexec devs).trans hend⟩

theorem completed_rdbit : Completed s (runCommand .rdbit devs s) := by
  obtain ⟨_, hend⟩ := rdbit_run h hc hlen
  rw [hend]
  exact ⟨rfl, rfl, rfl, rfl, rfl, rfl⟩

/-- The host reads the sampled bit in bit 0 (R88). -/
theorem rdbit_rxdata : (runCommand .rdbit devs s).rxdata.getLsbD 0 = slotSample c devs := by
  obtain ⟨_, hend⟩ := rdbit_run h hc hlen
  rw [hend]
  show BitVec.getLsbD (if slotSample c devs then 0x01#8 else 0x00#8) 0 = _
  cases slotSample c devs <;> decide

end Read

/-- Settles O42: both make eight read slots one after the other, and sample `i` is bit `i` of the one and the result of
the `i`-th of the others. -/
theorem rdbyteIsEightRdbits : Obligations.RdbyteIsEightRdbits := by
  intro s devs hr ha hc hlen slots all
  have hstart : AwaitsSlot s.cfg s := ⟨hr, ha, rfl⟩
  have hbit (i : Nat) (hi : i < 8) (t : State) (ht : AwaitsSlot s.cfg t) :
      runTrace .rdbit (devs i) t = readSlotTrace s.cfg ∧ AwaitsSlot s.cfg (runCommand .rdbit (devs i) t) := by
    obtain ⟨hline, _⟩ := rdbit_run ht hc (hlen i hi)
    exact ⟨hline, (completed_rdbit ht hc (hlen i hi)).awaitsSlot ht⟩
  have hawaits {n : Nat} (hn : n < 8) :
      AwaitsSlot s.cfg (runCommands ((List.range n).map (fun i => (.rdbit, devs i))) s) := by
    obtain ⟨_, hafter⟩ := runTraces_range (fun i hi => hbit i (hi.trans hn)) hstart
    exact hafter
  obtain ⟨hlines, _⟩ := runTraces_range hbit hstart
  obtain ⟨hline, hend⟩ := run_of_runs (exec_rdbyte_slots hr ha) (runs_rdbyte hc hlen)
  rw [slotsDone_rdbyte] at hend
  have hbyte : Completed s (runCommand .rdbyte all s) := hend ▸ ⟨rfl, rfl, rfl, rfl, rfl, rfl⟩
  have hrxdata : (runCommand .rdbyte all s).rxdata = samplesIn (fun i => slotSample s.cfg (devs i)) 8 := by rw [hend]
  refine ⟨hline.trans hlines.symm, fun i hi => ?_, ?_⟩
  · have htake : slots.take (i + 1) = (List.range (i + 1)).map (fun i => (.rdbit, devs i)) := by
      rw [← List.map_take, List.take_range, min_eq_left hi]
    rw [htake, runCommands_range_succ, rdbit_rxdata (hawaits hi) hc (hlen i hi), hrxdata,
      samplesIn_bit _ hi (by omega) le_rfl, Nat.add_sub_cancel_left]
  · have hlast : runCommands slots s = _ := runCommands_range_succ 7 s
    have hseven := hawaits (n := 7) (by decide)
    rw [hlast, hbyte.status ha]
    exact ((completed_rdbit hseven hc (hlen 7 (by decide))).status hseven.armed).symm

end Sys2Proof.Machine
end

section
/-! SUPPORT. The CRC8 generator (`42_crc8.md` R120 to R124): the single-bit shift, one byte, a sequence of bytes, and the
commands CRCCLR and CRCBYTE on a ready port. -/

namespace Sys2Proof.Machine

/-! ## The single-bit shift (R121) -/

/-- Bit `i` comes from bit `i + 1`, and the feedback bit goes in where the polynomial has a 1. -/
theorem getLsbD_crcShift (c : Byte) (d : Bool) (i : Nat) :
    (crcShift c d).getLsbD i = (c.getLsbD (i + 1) ^^ ((c.getLsbD 0 ^^ d) && crcPoly.getLsbD i)) := by
  rw [crcShift]
  cases c.getLsbD 0 ^^ d <;> simp [Nat.add_comm]

/-- The polynomial has bit 7, so that the feedback bit can be read off the result. -/
theorem getLsbD_crcShift_seven (c : Byte) (d : Bool) : (crcShift c d).getLsbD 7 = (c.getLsbD 0 ^^ d) := by
  rw [getLsbD_crcShift]
  simp [crcPoly]

/-- A shift loses nothing: bit 7 of the result gives the bit shifted out, the others give the bits above it. -/
theorem crcShift_injective (d : Bool) : Function.Injective (crcShift · d) := by
  intro c c' h
  have hbit (i : Nat) : (crcShift c d).getLsbD i = (crcShift c' d).getLsbD i := congrArg (·.getLsbD i) h
  have hfeed : (c.getLsbD 0 ^^ d) = (c'.getLsbD 0 ^^ d) := by
    rw [← getLsbD_crcShift_seven, ← getLsbD_crcShift_seven, hbit]
  refine BitVec.eq_of_getLsbD_eq fun i _ => ?_
  cases i with
  | zero => exact Bool.xor_left_inj.mp hfeed
  | succ i =>
    have habove := hbit i
    rw [getLsbD_crcShift, getLsbD_crcShift, hfeed] at habove
    exact Bool.xor_left_inj.mp habove

/-- An input bit equal to the bit shifted out feeds nothing back. -/
theorem crcShift_ushiftRight (c : Byte) (i : Nat) : crcShift (c >>> i) (c.getLsbD i) = c >>> (i + 1) := by
  simp [crcShift, BitVec.shiftRight_add]

/-- Settles O19: the loop has its eight passes in this order, and each register equation is the general bit of the shift
with the polynomial's bit put in. -/
theorem crcStepRegisterEquations : Obligations.CrcStepRegisterEquations := by
  refine ⟨fun _ _ => rfl, fun c d => ⟨rfl, ?_⟩⟩
  simp only [getLsbD_crcShift]
  simp [crcPoly]

/-! ## One byte (R121) -/

/-- A byte is eight shifts, and each of them loses nothing. -/
theorem crc8Step_injective (b : Byte) : Function.Injective (crc8Step · b) := by
  intro c c' h
  iterate 8 apply crcShift_injective _
  exact h

/-- Shifting the register's own bits in feeds nothing back and empties it. -/
theorem foldl_crcShift_self (c : Byte) (n : Nat) :
    (List.range n).foldl (fun r i => crcShift r (c.getLsbD i)) c = c >>> n := by
  induction n with
  | zero => simp
  | succ n ih => rw [List.range_succ, List.foldl_concat, ih, crcShift_ushiftRight]

theorem crc8Step_self (c : Byte) : crc8Step c c = 0#8 :=
  (foldl_crcShift_self c 8).trans (BitVec.ushiftRight_eq_zero le_rfl)

/-- Only the byte that the register holds takes it to zero. -/
theorem crc8Step_eq_zero_iff {c b : Byte} : crc8Step c b = 0#8 ↔ c = b := by
  rw [← crc8Step_self b, (crc8Step_injective b).eq_iff]

/-! ## A sequence of bytes (R120, R124) -/

theorem crc8_append (x y : List Byte) : crc8 (x ++ y) = y.foldl crc8Step (crc8 x) := List.foldl_append

theorem crc8_concat (x : List Byte) (b : Byte) : crc8 (x ++ [b]) = crc8Step (crc8 x) b := crc8_append x [b]

/-- The self-check of R124 (c), in both directions and for a sequence of any length. -/
theorem crc8_concat_eq_zero_iff {x : List Byte} {b : Byte} : crc8 (x ++ [b]) = 0#8 ↔ crc8 x = b := by
  rw [crc8_concat, crc8Step_eq_zero_iff]

theorem crc8_replicate_zero (n : Nat) : crc8 (List.replicate n 0#8) = 0#8 := by
  induction n with
  | zero => rfl
  | succ n ih => rw [List.replicate_succ', crc8_concat_eq_zero_iff, ih]

theorem romCode_toList (code : RomCode) : code.toList.take 7 ++ [code[7]] = code.toList :=
  (List.take_concat_get' code.toList 7 (by simp)).trans (List.take_of_length_le (by simp))

/-! ## The commands (R122, R123) -/

theorem exec_crcclr {s : State} (hr : s.cmdReady = true) :
    exec .crcclr s = .next { s with crc := 0#8, err := .ok, busy := false } := by
  rw [exec_ready hr, ← not_busy_of_cmdReady hr]
  rfl

theorem exec_crcbyte {s : State} (hr : s.cmdReady = true) (v : Byte) :
    exec (.crcbyte v) s = .next { s with crc := crc8Step s.crc v, err := .ok, busy := false } := by
  rw [exec_ready hr, ← not_busy_of_cmdReady hr]
  rfl

theorem issueAll_cons {i : Instr} {s : State} (hr : s.cmdReady = true) (is : List Instr) :
    issueAll (i :: is) s = issueAll is (issued i s) := by
  rw [issueAll, exec_ready hr]

/-- A row of CRCBYTE shifts its bytes in, from whatever value `CRC` has. -/
theorem issueAll_crcbytes {s : State} (hr : s.cmdReady = true) (bytes : List Byte) (c : Byte) :
    issueAll (bytes.map .crcbyte) { s with crc := c, err := .ok } =
      .next { s with crc := bytes.foldl crc8Step c, err := .ok } := by
  induction bytes generalizing c with
  | nil => rfl
  | cons b bytes ih => exact (issueAll_cons (by exact hr) _).trans (ih (crc8Step c b))

theorem issueAll_crcclr_crcbytes {s : State} (hr : s.cmdReady = true) (bytes : List Byte) :
    issueAll (.crcclr :: bytes.map .crcbyte) s = .next { s with crc := crc8 bytes, err := .ok } :=
  (issueAll_cons hr _).trans (issueAll_crcbytes hr bytes 0#8)

/-- A word with CRCCLR's opcode and a nonzero operand is one of R64's illegal words. -/
theorem illegalWord_crcclr_operand {imm8 : Byte} (h : imm8 ≠ 0#8) : IllegalWord ((0x08 : Byte) ++ imm8) := by
  obtain ⟨_, hop, himm⟩ := Laws.EncodedFields.fields_of_append 8#4 imm8
  rw [show (0x08 : Byte) = 0#4 ++ 8#4 by decide, IllegalWord, hop, himm]
  exact .inr (.inr (.inl ⟨by decide, h⟩))

/-! ## The obligations -/

/-- Settles O17: the effect on a ready port, and the nonzero operand by R64's list of illegal words. -/
theorem crcclrClearsCrc : Obligations.CrcclrClearsCrc := by
  refine ⟨rfl, fun _ hr => exec_crcclr hr, fun s imm8 hv hr hcmd himm => ?_⟩
  obtain ⟨e, he⟩ := (decode_error_iff s.cmd).mpr (hcmd ▸ illegalWord_crcclr_operand himm)
  exact ⟨false, step_illegal hv hr he⟩

/-- Settles O18: a row of CRCBYTE folds `crc8_step`, and hardware reset leaves `CRC` and `ERR` as CRCCLR does. -/
theorem crcbyteShiftsOneByte : Obligations.CrcbyteShiftsOneByte :=
  ⟨fun v => ⟨encode_crcbyte v, decode_eq_ok_iff.mpr ⟨encode_crcbyte v, rfl, rfl⟩⟩, fun _ v hr => exec_crcbyte hr v,
    fun _ bytes hr => issueAll_crcclr_crcbytes hr bytes, fun bytes => issueAll_crcbytes (s := State.reset) rfl bytes 0#8,
    crc8Step_self 0, crc8Step_self, by decide, by decide⟩

/-- Settles O20: the computation on the block starts with CRCCLR, and a byte takes the register to zero exactly when it
is the register's value. -/
theorem crc8Properties : Obligations.Crc8Properties :=
  ⟨fun _ _ x h₁ h₂ => ⟨_, _, issueAll_crcclr_crcbytes h₁ x, issueAll_crcclr_crcbytes h₂ x, rfl, rfl⟩, crc8_append,
    fun _ => crc8_concat_eq_zero_iff.mpr rfl,
    fun code => by rw [← crc8_concat_eq_zero_iff, romCode_toList]; rfl, crc8_replicate_zero⟩

end Sys2Proof.Machine
end

section
/-! SUPPORT. The ROM search of the host (`44_host_sequences.md` R138) against any bus: what one position and a whole
pass issue, and what they write into the ROM buffer. -/

namespace Sys2Proof.Machine

/-- The commands of a position where `bit` is chosen (R138). -/
def positionCommands (bit : Bool) : List Instr := [.rdbit, .rdbit, .wrbit ((BitVec.ofBool bit).setWidth 8)]

section Loop
variable (answer : List Instr → Reply) (last : Fin 65)

/-- A position either ends the pass at the raw pair 11, or chooses a bit, which goes into the ROM buffer and onto the
line before the rest of the pass. -/
theorem searchLoop_cons (k : Fin 64) (ks : List (Fin 64)) (marker : Fin 65) (rom : RomBuffer) (past : List Instr) :
    (searchLoop last (k :: ks) marker rom).result answer past = { rom := rom, marker := marker, complete := false } ∨
    ∃ bit marker',
      (searchLoop last (k :: ks) marker rom).result answer past =
        (searchLoop last ks marker' (rom.set k bit)).result answer ((positionCommands bit).reverse ++ past) ∧
      (searchLoop last (k :: ks) marker rom).commands answer past =
        positionCommands bit ++
          (searchLoop last ks marker' (rom.set k bit)).commands answer ((positionCommands bit).reverse ++ past) := by
  simp only [searchLoop, readByte, HostProgram.result_issue, HostProgram.commands_issue]
  cases searchChoice last.val (k.val + 1) rom[k.val] (lowBit (answer (.rdbit :: past)).rxdata)
      (lowBit (answer (.rdbit :: .rdbit :: past)).rxdata) with
  | none => exact .inl rfl
  | some bit => exact .inr ⟨bit, _, rfl, rfl⟩

/-- A pass leaves the bits of the positions it does not visit. -/
theorem searchLoop_keeps {j : Fin 64} {ks : List (Fin 64)} (hj : j ∉ ks) (marker : Fin 65) (rom : RomBuffer)
    (past : List Instr) : ((searchLoop last ks marker rom).result answer past).rom[j.val] = rom[j.val] := by
  induction ks generalizing marker rom past with
  | nil => rfl
  | cons k ks ih =>
    obtain ⟨hjk, hjks⟩ := List.ne_and_not_mem_of_not_mem_cons hj
    obtain hend | ⟨bit, marker', hresult, _⟩ := searchLoop_cons answer last k ks marker rom past
    · rw [hend]
    · rw [hresult, ih hjks, Vector.getElem_set_ne _ _ (Fin.val_ne_of_ne (Ne.symm hjk))]

/-- A pass that reaches the end of its positions writes to the line, at each of them, the bit it leaves in the ROM
buffer: no later position touches that bit. -/
theorem searchLoop_commands {ks : List (Fin 64)} (hks : ks.Nodup) {marker : Fin 65} {rom : RomBuffer}
    {past : List Instr} (h : ((searchLoop last ks marker rom).result answer past).complete = true) :
    (searchLoop last ks marker rom).commands answer past =
      ks.flatMap (fun k => positionCommands ((searchLoop last ks marker rom).result answer past).rom[k.val]) := by
  induction ks generalizing marker rom past with
  | nil => rfl
  | cons k ks ih =>
    obtain ⟨hk, hks⟩ := List.nodup_cons.mp hks
    obtain hend | ⟨bit, marker', hresult, hcommands⟩ := searchLoop_cons answer last k ks marker rom past
    · simp [hend] at h
    · rw [hresult] at h ⊢
      have hbit : ((searchLoop last ks marker' (rom.set k bit)).result answer
          ((positionCommands bit).reverse ++ past)).rom[k.val] = bit := by
        rw [searchLoop_keeps answer last hk, Vector.getElem_set_self]
      rw [hcommands, ih hks h, List.flatMap_cons, hbit]

end Loop

/-! ## A search step -/

/-- A pass gives a code exactly when it is complete, and then the rule's code and state (R138). -/
theorem searchOutcome_eq_code_iff {S T : SearchState} {pass : SearchPass} {rom : RomCode} :
    searchOutcome S pass = (T, .code rom) ↔
      pass.complete = true ∧ rom = romOfBits pass.rom.toList ∧
      T = { S with lastDiscrepancy := pass.marker, doneFlag := decide (pass.marker = 0), rom := pass.rom } := by
  rw [searchOutcome]
  cases pass.complete <;> simp [eq_comm, and_comm]

/-- A search step that returns a code has issued RESET and Search-ROM, and has made the code of its pass. -/
theorem searchNext_code {answer : List Instr → Reply} {past : List Instr} {S T : SearchState} {rom : RomCode}
    (h : (searchNext S).result answer past = (T, .code rom)) :
    searchOutcome S ((searchLoop S.lastDiscrepancy (List.finRange 64) 0 S.rom).result answer
      (.sendcmd 0xF0 :: .reset :: past)) = (T, .code rom) ∧
    (searchNext S).commands answer past = .reset :: .sendcmd 0xF0 ::
      (searchLoop S.lastDiscrepancy (List.finRange 64) 0 S.rom).commands answer
        (.sendcmd 0xF0 :: .reset :: past) := by
  unfold searchNext at h ⊢
  by_cases hdone : S.doneFlag = true
  · simp [hdone] at h
  · rw [if_neg hdone] at h ⊢
    rw [HostProgram.result_issue] at h
    rw [HostProgram.commands_issue]
    by_cases hfail : (answer (.reset :: past)).err = .noPresence
    · simp [hfail] at h
    · rw [if_neg hfail] at h ⊢
      rw [result_issueThen, HostProgram.result_map] at h
      rw [commands_issueThen, HostProgram.commands_map]
      exact ⟨h, rfl⟩

/-- Three commands for each position. -/
theorem length_flatMap_positionCommands (bit : Fin 64 → Bool) (ks : List (Fin 64)) :
    (ks.flatMap fun k => positionCommands (bit k)).length = 3 * ks.length := by
  simp [List.length_flatMap, positionCommands, Nat.mul_comm]

/-- Settles O46: RESET and Search-ROM, then a pass over 64 different positions that reaches their end. -/
theorem searchStepCommands : Obligations.SearchStepCommands := by
  intro answer past S T rom h
  obtain ⟨hcode, hcommands⟩ := searchNext_code h
  obtain ⟨hcomplete, hrom, rfl⟩ := searchOutcome_eq_code_iff.mp hcode
  rw [hcommands, searchLoop_commands answer _ (List.nodup_finRange 64) hcomplete]
  refine ⟨rfl, ?_, hrom, decide_eq_true_iff⟩
  rw [List.length_cons, List.length_cons, length_flatMap_positionCommands, List.length_finRange]

end Sys2Proof.Machine
end

section
/-! SUPPORT. RESET that fails (`40_bus_bit_ops.md` R87, `60_exceptions.md` R151), and the search on a bus without
devices (`44_host_sequences.md` R137 to R139). -/

namespace Sys2Proof.Machine

/-! ## RESET without presence -/

/-- The block after a RESET that has failed (R151); `seen` says whether a sample has read low. -/
def resetFailed (s : State) (seen : Bool) : State :=
  { s with busy := false, rstok := false, err := .noPresence, fsm := .idle, tcnt := 0#9, entry := false,
           dqOe := false, opc := 1#4, poll := s.cfg.nPoll, seenLow := seen }

theorem complete_reset_noPresence {s : State} (h : s.opc = 1#4) :
    complete .noPresence s = { s with fsm := .idle, dqOe := false, entry := false, busy := false, err := .noPresence,
                                      rstok := false } := by
  rw [complete, rstokAfter_reset h, rxdataAfter_other (by rw [h]; decide)]
  rfl

/-- With the budget used up RESET completes (R81, R151). -/
theorem advance_polling_budget {s : State} {n : Nat} (hn : s.cfg.nPoll.toNat = n) (low : Bool) :
    advance { polling (resetRegisters s) n low with tcnt := 0#9, entry := false } = resetFailed s low := by
  have hused : BitVec.ofNat 6 n = s.cfg.nPoll := by rw [← hn, BitVec.ofNat_toNat, BitVec.setWidth_eq]
  rw [polling, hused]
  exact (if_pos rfl).trans (complete_reset_noPresence rfl)

/-- A RESET none of whose samples ends the poll: it fails when the budget is used up (R87, R151). -/
theorem runs_resetFailure {s : State} (hc : s.cfg.Legal) {devs : List Bool}
    (hlen : devs.length = resetFailureLength s.cfg) (level : Nat → Bool)
    (hlevel : ∀ i, i < s.cfg.nPoll.toNat → presenceLevel s.cfg devs i = level i)
    (hgo : ∀ i, i < s.cfg.nPoll.toNat → ¬(level i = true ∧ seenLowBefore level i = true)) :
    Runs devs (startReset s) (resetTrace s.cfg devs.length)
      (resetFailed s (seenLowBefore level s.cfg.nPoll.toNat)) := by
  obtain ⟨_, hbudget, _⟩ := pollTiming hc
  obtain ⟨n, hn⟩ : ∃ n, s.cfg.nPoll.toNat = n + 1 := ⟨49, hbudget⟩
  have hlast : n < s.cfg.nPoll.toNat := by omega
  obtain ⟨before, final, rfl, hbefore, hfinal⟩ := exists_split2 devs (firstSampleTick s.cfg + s.cfg.tPoll.toNat * n)
    s.cfg.tPoll.toNat (by rw [hlen, resetFailureLength, hn, Nat.mul_succ, Nat.add_assoc])
  have hsample : final.getD 0 true = level n :=
    (presenceLevel_append_right hbefore final 0).symm.trans (hlevel n hlast)
  have hpolls := runs_resetPolls hc hlast hbefore level
    (fun i hi => (presenceLevel_append_left hc hbefore hi final).symm.trans (hlevel i (hi.trans hlast)))
    (fun i hi => hgo i (hi.trans hlast))
  have hiteration := runs_iteration (s := resetRegisters s) hc (i := n) hfinal (by rw [hsample]; exact hgo n hlast)
  rw [hsample, advance_polling_budget hn] at hiteration
  have hall := hpolls.append ⟨rfl, rfl, rfl, rfl, rfl, rfl⟩ hiteration
  have hpulse : s.cfg.tRstl.toNat ≤ before.length := by rw [hbefore, firstSampleTick]; omega
  rw [resetTrace_append hpulse, ← List.length_append] at hall
  rwa [hn]

/-- No failing RESET lasts longer than R91 allows any command. -/
theorem resetFailureLength_le {c : Config.Timing} (h : c.Legal) : resetFailureLength c ≤ longestCommand := by
  obtain ⟨hpoll, hbudget, _⟩ := pollTiming h
  obtain ⟨⟨_, hpulse⟩, ⟨_, hwait⟩, _⟩ := h
  simp only [resetFailureLength, firstSampleTick, longestCommand, hpoll, hbudget]
  omega

/-! ## The host waiting for a command -/

/-- Waiting for a command whose run is known, until it is over. -/
theorem awaitReady_of_runs {env : Nat → Bool} {start n limit : Nat} {s t : State} {trace : List Bool}
    (h : Runs ((List.range n).map fun i => env (start + i)) s trace t) (hs : s.busy = true) (ht : t.busy = false)
    (hn : n ≤ limit) : awaitReady env limit (start, s) = (start + n, t) := by
  obtain ⟨hend, _, hquiet⟩ := h
  rw [awaitReady_eq env hn ?busy (by rw [hend, ht]), hend]
  case busy =>
    intro k hk
    obtain ⟨hbusy, _⟩ := hquiet k (by simpa using hk)
    rw [← List.map_take, List.take_range, Nat.min_eq_left hk.le] at hbusy
    exact hbusy.trans hs

theorem acceptedState_ready {s : State} (h : s.cmdReady = true) (i : Instr) : acceptedState i s = issued i s := by
  rw [acceptedState, exec_ready h]

/-! ## The empty bus -/

/-- Without a low sample none is remembered. -/
theorem seenLowBefore_high (n : Nat) : seenLowBefore (fun _ => true) n = false := by
  rw [← Bool.not_eq_true, seenLowBefore_eq_true_iff]
  simp

/-- RESET on a bus without devices, as the host waits for it. -/
theorem awaitReady_reset_emptyBus {s : State} (hc : s.cfg.Legal) (start : Nat) :
    awaitReady (fun _ => true) longestCommand (start, startReset s) =
      (start + resetFailureLength s.cfg, resetFailed s false) := by
  have hhigh (i : Nat) : presenceLevel s.cfg ((List.range (resetFailureLength s.cfg)).map fun _ => true) i = true := by
    simp [presenceLevel]
  have hrun := runs_resetFailure hc (by simp) (fun _ => true) (fun i _ => hhigh i)
    (fun i _ => by simp [seenLowBefore_high])
  rw [seenLowBefore_high] at hrun
  exact awaitReady_of_runs hrun rfl rfl (resetFailureLength_le hc)

/-- Settles O47: `first()` issues RESET, which fails at the end of its budget, and abandons the search. -/
theorem emptyBusGivesNoCode : Obligations.EmptyBusGivesNoCode := by
  intro S s start hr hc
  have hreleased : s.rstN = true := rstN_of_cmdReady hr
  refine ⟨resetFailed s false, ?run, rfl, (cmdReady_iff _).mpr ⟨hreleased, rfl⟩, rfl⟩
  rw [searchFirst, searchNext, if_neg Bool.false_ne_true, HostProgram.runOn_issue _ _ _ _ (not_busy_of_cmdReady hr),
    acceptedState_ready hr, issued, awaitReady_reset_emptyBus hc]
  rfl

end Sys2Proof.Machine
end

section
/-! SUPPORT. How commands end in an error (`60_exceptions.md` R151 to R156): there is always a next state, the order of
the two checks of an issue step, and RESET without presence. -/

namespace Sys2Proof.Machine

/-! ## No traps (R156) -/

/-- Settles O10: each of the three kinds of step has its next state, and so has every issue step. -/
theorem everyStepAnswersNext : Obligations.EveryStepAnswersNext := by
  refine ⟨fun s => ?_, fun i s => ⟨_, exec_eq i s⟩⟩
  obtain ⟨_, _, _, _, hlegal⟩ | ⟨_, _, _, _, hillegal⟩ | ⟨_, houtside⟩ := step_cases s
  · exact ⟨_, hlegal⟩
  · exact ⟨_, hillegal⟩
  · exact ⟨_, houtside⟩

/-! ## The legality check and the armed check (R63, R154, R155) -/

/-- A WRBIT that passes the legality check meets the armed check. -/
theorem exec_wrbit_wellFormed_unarmed {s : State} (hr : s.cmdReady = true) (hu : s.rstok = false) {imm8 : Byte}
    (hw : (Instr.wrbit imm8).WellFormed) : exec (.wrbit imm8) s = .next { s with err := .notArmed } := by
  have hbit : isBitOperand imm8 = true := hw
  rw [exec_ready hr, issued, if_pos hbit, whenArmed_unarmed _ hu, raise]

/-- Settles O15, command by command. -/
theorem unarmedCommandsRefused : Obligations.UnarmedCommandsRefused := by
  rintro s i hr hu hw (rfl | ⟨imm8, rfl⟩ | rfl | ⟨v, rfl⟩ | ⟨v, rfl⟩)
  · exact exec_rdbit_unarmed hr hu
  · exact exec_wrbit_wellFormed_unarmed hr hu hw
  · exact exec_rdbyte_unarmed hr hu
  · exact exec_wrbyte_unarmed hr hu v
  · exact exec_wrbyte_unarmed hr hu v

/-- Settles O16: an illegal word never gets as far as the armed check, and RESET and the CRC commands have none. -/
theorem legalityTestedBeforeArmed : Obligations.LegalityTestedBeforeArmed :=
  ⟨fun _ _ hv hr _ hd => step_illegal hv hr hd, fun _ _ hr h => exec_wrbit_illegal hr h,
    fun s hr _ => ⟨⟨startReset s, exec_ready hr .reset, rfl, rfl⟩, ⟨_, exec_crcclr hr, rfl⟩,
      fun v => ⟨_, exec_crcbyte hr v, rfl⟩⟩⟩

/-! ## When the samples of RESET see a presence pulse (R87) -/

/-- A high sample after a low one makes a presence pulse: from the first low sample to the first high one after it. -/
theorem exists_presenceSeen_of_release {c : Config.Timing} {devs : List Bool} {i : Nat} (hi : i < c.nPoll.toNat)
    (hrelease : presenceLevel c devs i = true) (hseen : seenLowBefore (presenceLevel c devs) i = true) :
    ∃ iLow iRel, PresenceSeen c devs iLow iRel := by
  obtain ⟨j, hji, hj⟩ := (seenLowBefore_eq_true_iff _ _).mp hseen
  have hlow : ∃ k, presenceLevel c devs k = false := ⟨j, hj⟩
  have hbefore : Nat.find hlow < i := (Nat.find_min' hlow hj).trans_lt hji
  have hrel : ∃ k, Nat.find hlow < k ∧ presenceLevel c devs k = true := ⟨i, hbefore, hrelease⟩
  obtain ⟨hafter, hhigh⟩ := Nat.find_spec hrel
  refine ⟨Nat.find hlow, Nat.find hrel, hafter, ?budget, fun k hk => ?high, Nat.find_spec hlow, fun k hlo hk => ?held,
    hhigh⟩
  case budget => exact (Nat.find_min' hrel ⟨hbefore, hrelease⟩).trans_lt hi
  case high => exact Bool.of_not_eq_false (Nat.find_min hlow hk)
  case held => exact Bool.eq_false_iff.mpr fun hk' => Nat.find_min hrel hk ⟨hlo, hk'⟩

/-- A presence pulse depends on the samples up to the release alone. -/
theorem PresenceSeen.congr {c : Config.Timing} {devs devs' : List Bool} {iLow iRel : Nat}
    (h : PresenceSeen c devs iLow iRel)
    (hsame : ∀ i, i < iRel + 1 → presenceLevel c devs' i = presenceLevel c devs i) :
    PresenceSeen c devs' iLow iRel := by
  obtain ⟨hlt, hbudget, hhigh, hlow, hheld, hrelease⟩ := h
  refine ⟨hlt, hbudget, fun i hi => ?_, ?_, fun i hlo hi => ?_, ?_⟩
  · rw [hsame i (by omega), hhigh i hi]
  · rw [hsame iLow (by omega), hlow]
  · rw [hsame i (by omega), hheld i hlo hi]
  · rw [hsame iRel (by omega), hrelease]

/-! ## RESET over the time in which it may fail (R151) -/

/-- R5 has the guard as long as one iteration of the poll. -/
theorem resetSuccessLength_eq {c : Config.Timing} (hc : c.Legal) (iRel : Nat) :
    resetSuccessLength c iRel = firstSampleTick c + c.tPoll.toNat * (iRel + 1) := by
  obtain ⟨hpoll, _, hguard⟩ := pollTiming hc
  rw [resetSuccessLength, hguard, hpoll]
  omega

theorem resetSuccessLength_le {c : Config.Timing} (hc : c.Legal) {iRel : Nat} (h : iRel < c.nPoll.toNat) :
    resetSuccessLength c iRel ≤ resetFailureLength c := by
  rw [resetSuccessLength_eq hc, resetFailureLength]
  exact Nat.add_le_add_left (Nat.mul_le_mul_left _ h) _

/-- A RESET that sees a presence pulse has completed with `OK` by the time at which it could fail. -/
theorem err_resetSuccess {s : State} (hc : s.cfg.Legal) {devs : List Bool} {iLow iRel : Nat}
    (hlen : devs.length = resetFailureLength s.cfg) (hseen : PresenceSeen s.cfg devs iLow iRel) :
    (ticks devs (startReset s)).err = .ok := by
  have hfits := resetSuccessLength_le hc hseen.within_budget
  obtain ⟨run, rest, rfl, hrun, _⟩ := exists_split2 devs (resetSuccessLength s.cfg iRel)
    (resetFailureLength s.cfg - resetSuccessLength s.cfg iRel) (by omega)
  have hsamples := hrun.trans (resetSuccessLength_eq hc iRel)
  have hseenRun := hseen.congr fun i hi => (presenceLevel_append_left hc hsamples hi rest).symm
  obtain ⟨hend, _, _⟩ := runs_resetSuccess hc hseenRun hrun
  rw [ticks_append, hend, ticks_idle rfl]

/-- Settles O40: without a presence pulse no sample ends the poll, so that RESET uses up its budget; with one it has
succeeded before. -/
theorem resetFailsWithoutPresence : Obligations.ResetFailsWithoutPresence := by
  intro s devs hr hc hlen
  have hfailure (hnone : ¬∃ iLow iRel, PresenceSeen s.cfg devs iLow iRel) :=
    runs_resetFailure hc hlen (presenceLevel s.cfg devs) (fun _ _ => rfl)
      fun i hi ⟨hrelease, hlow⟩ => hnone (exists_presenceSeen_of_release hi hrelease hlow)
  refine ⟨startReset s, exec_ready hr .reset, ⟨?seen, fun hnone => ?unseen⟩, fun hnone => ?failure⟩
  case seen =>
    rintro herr ⟨iLow, iRel, hseen⟩
    rw [err_resetSuccess hc hlen hseen] at herr
    cases herr
  case unseen => rw [(hfailure hnone).state, resetFailed]
  case failure =>
    obtain ⟨hend, hline, hquiet⟩ := hfailure hnone
    refine ⟨hline, fun k hk => ?_, _, hend⟩
    obtain ⟨hbusy, _, herr, _⟩ := hquiet k hk
    exact ⟨hbusy, herr⟩

end Sys2Proof.Machine
end

section
/-! SUPPORT. Hardware reset and durations (`70_reset_and_hazards.md` R170, R171, R181): what `rst_n = 0` does to the
block, the state it leaves, and how long the timed commands last. -/

namespace Sys2Proof.Machine

/-! ## While `rst_n = 0` (R170) -/

/-- An event leaves a block at its reset values: a microsecond finds it idle, and every other event moves pins only. -/
theorem hardwareReset_applyEvent (e : Event) (s : State) :
    hardwareReset (applyEvent e (hardwareReset s)) = applyEvent e (hardwareReset s) := by
  cases e with
  | tick dev =>
    have hidle : applyEvent (.tick dev) (hardwareReset s) = hardwareReset s := tick_idle (hardwareReset_fsm s) dev
    rw [hidle, hardwareReset_idem]
  | present | withdraw | readStatus | rstAssert | rstRelease => rfl

/-- While `rst_n = 0` an event acts on the reset values, and what it leaves needs no second reset. -/
theorem deliver_asserted {s : State} (h : s.rstN = false) (e : Event) :
    deliver e s = applyEvent e (hardwareReset s) := by
  rw [deliver, holdReset_asserted h, holdReset_of_resetHeld fun _ => hardwareReset_applyEvent e s]

theorem applyEvent_releases_iff {s : State} (h : s.rstN = false) (e : Event) :
    (applyEvent e s).rstN = true ↔ e = .rstRelease := by
  cases e with
  | tick dev => simp [applyEvent, h]
  | present | withdraw | readStatus | rstAssert | rstRelease => simp [applyEvent, h]

/-- Assertion finds the block running or in reset already; hardware reset leaves no trace of which. -/
theorem deliver_rstAssert (s : State) : deliver .rstAssert s = { hardwareReset s with rstN := false } := by
  cases h : s.rstN
  · exact deliver_asserted h .rstAssert
  · rw [deliver, holdReset_released h]
    rfl

theorem not_cmdReady_of_asserted {s : State} (h : s.rstN = false) : s.cmdReady = false := by simp [State.cmdReady, h]

/-- Without a ready port the outside acts (R45). -/
theorem step_not_ready {s : State} (h : s.cmdReady = false) : step s = .next (environment s) := by
  rw [step, fetch_nothing (by simp [h])]

/-- Settles O25: the assertion itself, the events while it lasts, and the command port. -/
theorem hardwareResetAtAnyTime : Obligations.HardwareResetAtAnyTime := by
  refine ⟨deliver_rstAssert, fun s e h => ?held, fun s h => ?port⟩
  case held =>
    rw [deliver_asserted h]
    exact ⟨hardwareReset_applyEvent e s, applyEvent_releases_iff (s := hardwareReset s) h e⟩
  case port =>
    have hready := not_cmdReady_of_asserted h
    exact ⟨hready, step_not_ready hready, exec_not_ready hready⟩

/-! ## After hardware reset (R171) -/

theorem sr_reset (a : BitVec 2) : State.reset.sr a = 0 := by
  unfold State.sr
  split_ifs <;> rfl

/-- Settles O24: the reset values one by one, and no tick counts in `IDLE` (R82). -/
theorem stateAfterReset : Obligations.StateAfterReset :=
  ⟨rfl, rfl, rfl, rfl, rfl, rfl, rfl, rfl, rfl, rfl, rfl, rfl, sr_reset, ticks_idle rfl,
    fun _ devs hidle => ticks_idle hidle devs⟩

/-! ## Durations over the ranges of R5 (R181) -/

/-- A byte command of eight write slots is bounded by what bounds each slot. -/
theorem byteWriteLength_bounds {c : Config.Timing} {lo hi : Nat}
    (h : ∀ b, lo ≤ writeSlotLength c b ∧ writeSlotLength c b ≤ hi) (v : Byte) :
    8 * lo ≤ byteWriteLength c v ∧ byteWriteLength c v ≤ 8 * hi := by
  have hslots : ∀ n ∈ (List.range 8).map fun i => writeSlotLength c (v.getLsbD i), lo ≤ n ∧ n ≤ hi := by simp [h]
  exact ⟨List.card_nsmul_le_sum _ lo fun n hn => (hslots n hn).1,
    List.sum_le_card_nsmul _ hi fun n hn => (hslots n hn).2⟩

section
variable {c : Config.Timing} (h : c.Legal)
include h

theorem readSlotLength_bounds : 65 ≤ readSlotLength c ∧ readSlotLength c ≤ 70 := by
  simp only [Config.Timing.Legal, Config.inRange] at h
  simp only [readSlotLength]
  omega

theorem writeSlotLength_bounds (b : Bool) : 65 ≤ writeSlotLength c b ∧ writeSlotLength c b ≤ 70 := by
  simp only [Config.Timing.Legal, Config.inRange] at h
  cases b
  · show 65 ≤ c.tW0low.toNat + c.tW0rec.toNat ∧ c.tW0low.toNat + c.tW0rec.toNat ≤ 70
    omega
  · show 65 ≤ c.tW1low.toNat + c.tW1rec.toNat ∧ c.tW1low.toNat + c.tW1rec.toNat ≤ 70
    omega

theorem firstSampleTick_ge : 495 ≤ firstSampleTick c := by
  obtain ⟨⟨hpulse, _⟩, ⟨hwait, _⟩, _⟩ := h
  exact Nat.add_le_add hpulse hwait

theorem resetFailureLength_ge : 745 ≤ resetFailureLength c := by
  obtain ⟨hpoll, hbudget, _⟩ := pollTiming h
  have hfirst := firstSampleTick_ge h
  rw [resetFailureLength, hpoll, hbudget]
  omega

theorem resetSuccessLength_ge {iRel : Nat} (hrel : 1 ≤ iRel) : 505 ≤ resetSuccessLength c iRel := by
  obtain ⟨hpoll, _, _⟩ := pollTiming h
  have hfirst := firstSampleTick_ge h
  rw [resetSuccessLength_eq h, hpoll]
  omega

end

/-! ## Durations at the defaults of R5 (R181) -/

theorem writeSlotLength_default (b : Bool) : writeSlotLength Config.Timing.default b = 65 := by cases b <;> rfl

theorem byteWriteLength_default (v : Byte) : byteWriteLength Config.Timing.default v = 520 := by
  have hslots (b : Bool) := (writeSlotLength_default b).symm
  obtain ⟨hge, hle⟩ := byteWriteLength_bounds (fun b => ⟨(hslots b).le, (hslots b).ge⟩) v
  exact Nat.le_antisymm hle hge

theorem resetSuccessLength_default (iRel : Nat) :
    resetSuccessLength Config.Timing.default iRel = 500 + 5 * iRel := by
  show 495 + 5 * iRel + 5 = 500 + 5 * iRel
  omega

/-- Settles O43: R181's table, at the defaults and over the ranges; a success lasts no longer than a failure. -/
theorem durationsOverRanges : Obligations.DurationsOverRanges := by
  refine ⟨⟨rfl, writeSlotLength_default true, writeSlotLength_default false, rfl, byteWriteLength_default, rfl,
    resetSuccessLength_default, rfl⟩, fun c hc => ?ranges⟩
  have hread := readSlotLength_bounds hc
  have hfailure : resetFailureLength c ≤ 770 := resetFailureLength_le hc
  exact ⟨hread, writeSlotLength_bounds hc, by omega, byteWriteLength_bounds (writeSlotLength_bounds hc),
    fun iRel hpos hbudget => ⟨resetSuccessLength_ge hc hpos, (resetSuccessLength_le hc hbudget).trans hfailure⟩,
    resetFailureLength_ge hc, hfailure, Laws.Timing.legal_asymmetry hc⟩

end Sys2Proof.Machine
end
